-- ==== Sys2Proof/Word.lean ====
section
/-! DEFINITION. The two machine words: a 64-bit register slot and an octet. -/

namespace Sys2Proof

/-- A register slot: every register of CORE is 64 bits wide (10_state.md R20). All values are unsigned (R11). -/
abbrev Word := BitVec 64

/-- One octet of the wire encoding (00_scope.md section 6). -/
abbrev Byte := BitVec 8

end Sys2Proof
end

