-- ==== Sys2Proof/Config.lean ====
section
/-! DEFINITION. The implementation parameters of CORE (00_scope.md section 4, 20_memory.md R43). -/

namespace Sys2Proof

/-- `VMAX = 2^62 − 1`, the largest validated value (00_scope.md R7). -/
def Config.vmax : Nat := 2 ^ 62 - 1

/-- `P_SIZE_BITS`, the native platform width (00_scope.md R8, 92_eei_decisions.md D4). -/
def Config.pSizeBits : Nat := 64

/-- `2^64 − 1`, the largest native-width size: the bound of `ADDLEN` and of the counts `IN_REM` and `OUT_CAP`
(41_value.md R111, 00_scope.md R8). -/
def Config.nativeMax : Nat := 2 ^ Config.pSizeBits - 1

/-- The width in bytes of the input window and of the output window (00_scope.md R9). -/
def Config.windowBytes : Nat := 8

/-- The size in bytes of the register window (20_memory.md R40). -/
def Config.registerWindowBytes : Nat := 256

/-- `CORE_BASE`, the address of the register window in the host's address space. Only the platform fixes it: it is an open
parameter (20_memory.md R43), so it has no body and no proof can learn a value of it. -/
opaque Config.coreBase : Nat

end Sys2Proof
end

