-- ==== Sys2Proof/Syntax.lean ====
section
/-! DEFINITION. The commands of CORE, one constructor per row of the opcode map (30_encoding.md R61). -/

namespace Sys2Proof

/-- The eleven commands of 30_encoding.md R61. No command has an immediate: every operand is a register (R62), so no
constructor takes an argument. -/
inductive Instr where
  /-- `FROM.U8`: construct from an 8-bit integer (41_value.md R100). -/
  | fromU8
  /-- `FROM.U16`: construct from a 16-bit integer (41_value.md R101). -/
  | fromU16
  /-- `FROM.U32`: construct from a 32-bit integer (41_value.md R102). -/
  | fromU32
  /-- `FROM.U64`, also `FROM.SZ`: construct with a range check (41_value.md R103). -/
  | fromU64
  /-- `SIZE`: the minimal encoded length of a validated value (41_value.md R105). -/
  | size
  /-- `TO`, also `TO.U64` and `TO.SZ`: lossless extraction (41_value.md R107). -/
  | toVal
  /-- `ADD`: bounded addition of two validated values (41_value.md R109). -/
  | add
  /-- `ADDLEN`: a validated value plus a native length (41_value.md R111). -/
  | addlen
  /-- `CLS`: classify a raw value (42_classifier.md R131). -/
  | cls
  /-- `DEC`: decode one integer from the input window (43_decoder.md R140). -/
  | dec
  /-- `ENC`: encode one value into the output window (44_encoder.md R160). -/
  | enc
deriving DecidableEq, Repr

/-- Every command, in the order of 30_encoding.md R61. -/
def Instr.all : List Instr :=
  [.fromU8, .fromU16, .fromU32, .fromU64, .size, .toVal, .add, .addlen, .cls, .dec, .enc]

end Sys2Proof
end

