-- ==== Sys2Proof/Machine/HostLine.lean ====
section
/-! DEFINITION. What the host can do to CORE: the registers it addresses, the accesses it makes and the lines of a host
program (10_state.md R20, 30_encoding.md R66, 20_memory.md R46). Types only. -/

namespace Sys2Proof.Machine

/-- The twelve registers of 10_state.md R20, in the order of their offsets. -/
inductive Reg where
  | cmd | opa | opb | inRem | inWin | outCap
  | status | res | len | inUsed | outUsed | outWin
deriving DecidableEq, Repr

/-- The direction the host has on a register: the table's column "host" (10_state.md R20). -/
inductive HostAccess where
  /-- `RW`: the host reads and writes it. -/
  | readWrite
  /-- `RO`: the host reads it, and a host write is ignored (R27). -/
  | readOnly
deriving DecidableEq, Repr

/-- The width of one host access. Only a whole 64-bit slot has a meaning (10_state.md R28). -/
inductive AccessSize where
  | bits8 | bits16 | bits32 | bits64
deriving DecidableEq, Repr

/-- A comparison of the host line `if COND goto label` (30_encoding.md R66); unsigned, as every value is (00_scope.md R11). -/
inductive CmpOp where
  | eq | ne | lt | le | gt | ge
deriving DecidableEq, Repr

/-- `COND`: it "compares a register just read with a constant" (30_encoding.md R66). -/
structure Cond where
  op : CmpOp
  const : Word
deriving DecidableEq, Repr

/-- The value a host line supplies. 30_encoding.md R66 writes a 64-bit value; 95_test_vectors.md P2 also writes a value the
host has read and a variable of the host (assumption log 6). -/
inductive HostValue where
  /-- A constant. -/
  | lit (v : Word)
  /-- The value the last host read returned. -/
  | justRead
  /-- A variable of the host. -/
  | var (n : Nat)
deriving DecidableEq, Repr

/-- One line of a host program. The first twelve are 30_encoding.md R66's (a command line, the host lines, the four stream
macros; the plain `goto` is 95_test_vectors.md P2's); then the accesses as the bus sees them, the host's acts on its own buffers and variables, and the platform's reset. -/
inductive HostLine where
  /-- A command line: the mnemonic alone. It writes the command's word to `CMD`. -/
  | command (i : Instr)
  /-- `wr REG, value`. -/
  | wr (r : Reg) (v : HostValue)
  /-- `rd REG`. -/
  | rd (r : Reg)
  /-- `label:`; a label's name is a number here. -/
  | label (l : Nat)
  /-- `if COND goto label`. -/
  | ifGoto (c : Cond) (l : Nat)
  /-- `goto label`, as 95_test_vectors.md P2 uses it. -/
  | goto (l : Nat)
  /-- `halt`. -/
  | halt
  /-- `in.present`: writes `IN_REM` and `IN_WIN` (20_memory.md R46). The bytes beyond the stream, which the host need not
  write (R47), are those of `pad`, any value the host chooses. -/
  | inPresent (pad : Word)
  /-- `in.advance`: adds `IN_USED` to the cursor. -/
  | inAdvance
  /-- `out.present`: writes `OUT_CAP`. -/
  | outPresent
  /-- `out.append`: appends `OUT_USED` bytes of `OUT_WIN` and moves the sink on. -/
  | outAppend
  /-- A host read of any width at any byte offset of the register window (10_state.md R28). -/
  | readAt (sz : AccessSize) (off : BitVec 8)
  /-- A host write of any width at any byte offset of the register window (10_state.md R28). -/
  | writeAt (sz : AccessSize) (off : BitVec 8) (v : Word)
  /-- A host read at an address of the platform's address space (20_memory.md R43). -/
  | busRead (sz : AccessSize) (addr : Nat)
  /-- A host write at an address of the platform's address space (20_memory.md R43). -/
  | busWrite (sz : AccessSize) (addr : Nat) (v : Word)
  /-- The host sets one of its variables (95_test_vectors.md P2: `acc <- RES`). -/
  | assign (n : Nat) (v : HostValue)
  /-- More bytes arrive at the end of the input buffer (20_memory.md R48: "retry after more bytes arrive"). -/
  | inFeed (bytes : List Byte)
  /-- The host moves its cursor (70_reset_and_hazards.md R204: it "must first move the cursor back by 1"). -/
  | inSeek (cursor : Nat)
  /-- The host gives its sink more capacity (20_memory.md R48: "grow the buffer"). -/
  | outGrow (n : Nat)
  /-- The host takes the written bytes away and gives the sink a capacity (20_memory.md R48: "flush and retry"). -/
  | outFlush (cap : Nat)
  /-- The host copies the sink's bytes to the input buffer, cursor 0 (95_test_vectors.md P1). -/
  | outToIn
  /-- The platform asserts reset between two host actions (70_reset_and_hazards.md R200, R201). -/
  | reset
deriving DecidableEq, Repr

end Sys2Proof.Machine
end

