-- ==== Sys2Proof/WellFormed.lean ====
section
/-! DEFINITION. Which command words and which host programs are well formed. A term of `Instr` has no operand
(30_encoding.md R62), so every one of them is; what can be ill formed is the command word the host writes (R63) and the
labels of a host program (R66). -/

namespace Sys2Proof

/-- The three fields of a command word (30_encoding.md R60). -/
structure CmdFields where
  rsv : BitVec 58
  w : BitVec 2
  op : BitVec 4
deriving DecidableEq, Repr

/-- Not (a) of 30_encoding.md R63: `RSV` is zero. -/
def CmdFields.rsvOk (f : CmdFields) : Bool := f.rsv = 0

/-- Not (b) of 30_encoding.md R63: `OP` is one of 0x1 to 0x8. -/
def CmdFields.opOk (f : CmdFields) : Bool := 1 ≤ f.op.toNat && f.op.toNat ≤ 8

/-- Not (c) of 30_encoding.md R63: `W` is 00 unless `OP = 0x1`. -/
def CmdFields.widthOk (f : CmdFields) : Bool := f.w = 0 || f.op = 1

/-- A legal command word's fields (30_encoding.md R63). -/
def CmdFields.wf (f : CmdFields) : Bool := f.rsvOk && f.opOk && f.widthOk

namespace Machine

/-- The label a line declares. -/
def HostLine.declares : HostLine → Option Nat
  | .label l => some l
  | _ => none

/-- The label a line goes to. -/
def HostLine.target : HostLine → Option Nat
  | .ifGoto _ l => some l
  | .goto l => some l
  | _ => none

/-- The labels a host program declares, in order. -/
def programLabels (p : List HostLine) : List Nat := p.filterMap HostLine.declares

/-- Every `goto` names a label of the program. -/
def targetsDeclared (p : List HostLine) : Bool :=
  (p.filterMap HostLine.target).all (programLabels p).contains

/-- No label is declared twice. -/
def labelsDistinct (p : List HostLine) : Bool := decide (programLabels p).Nodup

/-- A host program whose control flow has one meaning (30_encoding.md R66). -/
def programWf (p : List HostLine) : Bool := targetsDeclared p && labelsDistinct p

end Machine

end Sys2Proof
end

