-- ==== Sys2Proof/Decode.lean ====
section
/-! DEFINITION. From a command word to a command, and back (30_encoding.md R60 to R63). -/

namespace Sys2Proof

/-- Why a command word is illegal: the three conditions of 30_encoding.md R63. The host sees one code for all of them. -/
inductive IllegalWord where
  /-- (a) `RSV ≠ 0`. -/
  | reservedBits
  /-- (b) `OP` is 0x0 or one of 0x9 to 0xF. -/
  | badOpcode
  /-- (c) `W ≠ 00` and `OP ≠ 0x1`. -/
  | badWidth
deriving DecidableEq, Repr

/-- The fields of a command word: `RSV = CMD[63:6]`, `W = CMD[5:4]`, `OP = CMD[3:0]` (30_encoding.md R60). -/
def cmdFields (word : Word) : CmdFields :=
  { rsv := word.extractLsb' 6 58, w := word.extractLsb' 4 2, op := word.extractLsb' 0 4 }

/-- The FROM row a width selects (30_encoding.md R61, 10_state.md R23). -/
def decodeFrom (w : BitVec 2) : Instr :=
  match w.toNat with
  | 0 => .fromU8
  | 1 => .fromU16
  | 2 => .fromU32
  | _ => .fromU64

/-- The row `OP` and `W` select (30_encoding.md R61), or why there is none (R63). -/
def decodeOp (op : BitVec 4) (w : BitVec 2) : Except IllegalWord Instr :=
  let plain (i : Instr) : Except IllegalWord Instr := if w = 0 then .ok i else .error .badWidth
  match op.toNat with
  | 1 => .ok (decodeFrom w)
  | 2 => plain .size
  | 3 => plain .toVal
  | 4 => plain .add
  | 5 => plain .addlen
  | 6 => plain .cls
  | 7 => plain .dec
  | 8 => plain .enc
  | _ => .error .badOpcode

/-- The command decoder. It is total on every 64-bit word; an illegal word is rejected by name (30_encoding.md R63). -/
def decode (word : Word) : Except IllegalWord Instr :=
  let f := cmdFields word
  if f.rsv = 0 then decodeOp f.op f.w else .error .reservedBits

/-- The command word of a command: the third column of 30_encoding.md R61. -/
def encode : Instr → Word
  | .fromU8 => 0x01
  | .fromU16 => 0x11
  | .fromU32 => 0x21
  | .fromU64 => 0x31
  | .size => 0x02
  | .toVal => 0x03
  | .add => 0x04
  | .addlen => 0x05
  | .cls => 0x06
  | .dec => 0x07
  | .enc => 0x08

/-- The low `nbits` bits of `w` as a command word; the bits above are zero. -/
def tableWord (nbits w : Nat) : Word := BitVec.ofNat 64 (w % 2 ^ nbits)

/-- The command the decoder reads from a row of the opcode table. A command word is one 64-bit slot written to `CMD`, so the
table's bit numbers are the word's own (30_encoding.md R60). -/
def decodeTableWord (nbits w : Nat) : Option Instr :=
  match decode (tableWord nbits w) with
  | .ok i => some i
  | .error _ => none

end Sys2Proof
end

