-- ==== Sys2Proof/Machine/State.lean ====
section
/-! DEFINITION. The state of CORE and of the host that drives it, the reasons a step can stop, and the state after reset. -/

namespace Sys2Proof.Machine

/-- The host's input stream: the bytes `B` and the cursor `c`, with `0 ≤ c ≤ |B|` (20_memory.md R46). -/
structure InStream where
  bytes : List Byte
  cursor : Nat
deriving DecidableEq, Repr

/-- The host's output sink (20_memory.md R46): the bytes written so far, whose number is the write position `p`, and the
remaining capacity `K`. -/
structure OutSink where
  written : List Byte
  capacity : Nat
deriving DecidableEq, Repr

/-- The host: its program and the line it performs next, what it has read, its variables and its two buffers. None of it is a
register of CORE (00_scope.md R6, 10_state.md R22). -/
structure HostAgent where
  program : List HostLine
  line : Nat
  lastRead : Option Word
  vars : List (Nat × Word)
  input : InStream
  sink : OutSink
deriving DecidableEq, Repr

/-- The twelve registers of CORE (10_state.md R20) and the host beside it. CORE has no other state (R29, R30, R31). -/
structure State where
  cmd : Word
  opa : Word
  opb : Word
  inRem : Word
  inWin : Word
  outCap : Word
  status : Word
  res : Word
  len : Word
  inUsed : Word
  outUsed : Word
  outWin : Word
  host : HostAgent
deriving DecidableEq, Repr

/-- Why a step stops with a fault. Each is the HOST's: a command of CORE never stops (60_exceptions.md R183). All are safe:
the spec gives the host's act no meaning, and the model stops where a real host might go on. -/
inductive Fault where
  /-- `in.advance` or a seek would leave `0 ≤ c ≤ |B|` (20_memory.md R46). Raised by `inAdvance`, `inSeek`. Safe. -/
  | cursorPastEnd
  /-- `out.append` would produce more bytes than the sink's capacity `K` (20_memory.md R46). Raised by `outAppend`. Safe. -/
  | sinkOverrun
  /-- `out.append` would need an output byte beyond `OUT_BYTE(7)`: `OUT_USED` is above 8, which no run reaches
  (20_memory.md R40, 10_state.md R27). Raised by `outAppend`. Safe. -/
  | windowOverrun
  /-- A stream count does not fit the 64 bits of `IN_REM` or `OUT_CAP` (00_scope.md R8). Raised by `inPresent`,
  `outPresent`. Safe. -/
  | countTooWide
  /-- `goto` names a label the host program does not hold (30_encoding.md R66). Raised by `goto`, `ifGoto`. Safe. -/
  | unknownLabel
  /-- A line uses the value just read, or a variable, before the host has one (30_encoding.md R66). Raised by `wr`,
  `ifGoto`, `assign`. Safe. -/
  | hostValueUnset
  /-- An address outside CORE's 256-byte window (20_memory.md R43). Raised by `busRead`, `busWrite`. Safe. -/
  | outsideWindow
deriving DecidableEq, Repr

/-- Why a step is refused. -/
inductive Refusal where
  /-- An instruction that has no meaning in the model. No arm of `exec` answers it. Safe. -/
  | notModelled (mnemonic : String)
  /-- A host access narrower than 64 bits: "The model refuses a narrower access" (10_state.md R28). Raised by `readAt`,
  `writeAt`, `busRead`, `busWrite`. Safe. -/
  | narrowAccess
  /-- A host access at an offset that is no multiple of 8 (10_state.md R28). Raised by the same lines. Safe. -/
  | unalignedAccess
deriving DecidableEq, Repr

/-- A host with nothing to do: no program, no bytes, no capacity, nothing read (assumption log 2). -/
def HostAgent.idle : HostAgent :=
  { program := [], line := 0, lastRead := none, vars := [],
    input := { bytes := [], cursor := 0 }, sink := { written := [], capacity := 0 } }

/-- The machine right after reset: every register 0 (10_state.md R32, 70_reset_and_hazards.md R200), beside a host with
nothing to do. -/
def State.reset : State :=
  { cmd := 0, opa := 0, opb := 0, inRem := 0, inWin := 0, outCap := 0,
    status := 0, res := 0, len := 0, inUsed := 0, outUsed := 0, outWin := 0,
    host := HostAgent.idle }

end Sys2Proof.Machine
end

