-- ==== Sys2Proof/Machine/Flags.lean ====
section
/-! DEFINITION. `STATUS.CODE`, the only flag of CORE (10_state.md R24, 60_exceptions.md R180). -/

namespace Sys2Proof.Machine

/-- The outcome of a command (60_exceptions.md R180). Code 7 is never written, so it has no constructor. -/
inductive StatusCode where
  /-- The command succeeded. -/
  | ok
  /-- The input stream is empty or shorter than the tag implies. -/
  | absent
  /-- The value to encode is `≥ 2^62`. -/
  | oversized
  /-- The sink's remaining capacity is less than the minimal encoding. -/
  | noSpace
  /-- A construction, a sum or a validated operand exceeds `2^62 − 1`. -/
  | range
  /-- The native-width sum of `ADDLEN` exceeds `2^64 − 1`. -/
  | lenOvf
  /-- The command word is illegal. -/
  | illegal
deriving DecidableEq, Repr

/-- The number of a code (60_exceptions.md R180). -/
def StatusCode.bits : StatusCode → BitVec 3
  | .ok => 0
  | .absent => 1
  | .oversized => 2
  | .noSpace => 3
  | .range => 4
  | .lenOvf => 5
  | .illegal => 6

/-- `STATUS` with a code: `zext_64(code)`, so bits 63:3 read as 0 (60_exceptions.md R182, 10_state.md R24). -/
def StatusCode.word (c : StatusCode) : Word := c.bits.setWidth 64

/-- The code a `STATUS` word holds in bits 2:0, or none for 7, which is never written (60_exceptions.md R180). -/
def statusCode (status : Word) : Option StatusCode :=
  match (status.extractLsb' 0 3).toNat with
  | 0 => some .ok
  | 1 => some .absent
  | 2 => some .oversized
  | 3 => some .noSpace
  | 4 => some .range
  | 5 => some .lenOvf
  | 6 => some .illegal
  | _ => none

end Sys2Proof.Machine
end

