-- ==== Sys2Proof/Machine/Wire.lean ====
section
/-! DEFINITION. The byte windows, the length classes and the wire format (20_memory.md R41, R42, R44, R45; 30_encoding.md
R70 to R75; 42_classifier.md R133). -/

namespace Sys2Proof.Machine

/-- Byte `i` of a window, `i` in 0..7: bits `63−8i : 56−8i`, so byte 0 is the most significant (20_memory.md R41, R42). -/
def winByte (win : Word) (i : Nat) : Byte := win.extractLsb' (56 - 8 * i) 8

/-- The window that holds the bytes of a list at its first indices and 0 at every later one (20_memory.md R41, R42). -/
def packWindow (bs : List Byte) : Word :=
  bs.getD 0 0 ++ bs.getD 1 0 ++ bs.getD 2 0 ++ bs.getD 3 0 ++ bs.getD 4 0 ++ bs.getD 5 0 ++ bs.getD 6 0 ++ bs.getD 7 0

/-- A length class: "one of four fixed encoded sizes (1, 2, 4, 8 octets)" (00_scope.md section 6, 30_encoding.md R71). -/
inductive LenClass where
  | one | two | four | eight
deriving DecidableEq, Repr

/-- The length `L` of a class in octets (30_encoding.md R71). -/
def LenClass.octets : LenClass → Nat
  | .one => 1
  | .two => 2
  | .four => 4
  | .eight => 8

/-- `tag(L)`, the two tag bits of a class (42_classifier.md R133). -/
def LenClass.tag : LenClass → BitVec 2
  | .one => 0b00
  | .two => 0b01
  | .four => 0b10
  | .eight => 0b11

/-- The class a tag selects: `L = 1 << b0[7:6]` (30_encoding.md R72). No tag is reserved (R73). -/
def LenClass.ofTag (t : BitVec 2) : LenClass :=
  match t.toNat with
  | 0 => .one
  | 1 => .two
  | 2 => .four
  | _ => .eight

/-- The usable bits `u = 8L − 2` of a class (30_encoding.md R71). -/
def LenClass.usableBits (c : LenClass) : Nat := 8 * c.octets - 2

/-- A class's length as a register holds it. -/
def LenClass.word (c : LenClass) : Word := BitVec.ofNat 64 c.octets

/-- The tag bits of a first octet, `b0[7:6]` (30_encoding.md R70). -/
def tagBits (b0 : Byte) : BitVec 2 := b0.extractLsb' 6 2

/-- The class of the encoding that starts a window, read from its first octet alone (30_encoding.md R72). -/
def firstClass (win : Word) : LenClass := LenClass.ofTag (tagBits (winByte win 0))

/-- The tagged word `T_L(x) = (t << (8L − 2)) | x` (30_encoding.md R70), an unbounded number as R12 says. -/
def taggedWord (c : LenClass) (x : Nat) : Nat := (c.tag.toNat <<< c.usableBits) ||| x

/-- Octet `k` of an encoding: bits `[8(L−1−k)+7 : 8(L−1−k)]` of the tagged word (20_memory.md R45). -/
def wireOctet (c : LenClass) (x k : Nat) : Byte :=
  BitVec.ofNat 8 (taggedWord c x >>> (8 * (c.octets - 1 - k)))

/-- The octets of `x` in a class, most significant first (20_memory.md R44, R45). -/
def wireOctets (c : LenClass) (x : Nat) : List Byte := (List.range c.octets).map (wireOctet c x)

/-- The number a window's first encoding stands for, by the loop of 43_decoder.md R140 step 4. -/
def wireValue (win : Word) (c : LenClass) : Word :=
  (List.range (c.octets - 1)).foldl
    (fun v i => (v <<< 8) ||| (winByte win (i + 1)).setWidth 64)
    (((winByte win 0).extractLsb' 0 6).setWidth 64)

end Sys2Proof.Machine
end

