-- ==== Sys2Proof/Machine/Operands.lean ====
section
/-! DEFINITION. The operand forms of the commands (30_encoding.md R62, R64, R65). -/

namespace Sys2Proof.Machine

/-- `OPA[w−1:0]` zero-extended: the operand of a narrow FROM; the bits above the width are ignored (30_encoding.md R64). -/
def opaNarrow (w : Nat) (s : State) : Word := (s.opa.extractLsb' 0 w).setWidth 64

/-- `OPA` as a 64-bit unsigned number (30_encoding.md R65). -/
def opaNat (s : State) : Nat := s.opa.toNat

/-- `OPB` as a 64-bit unsigned number (30_encoding.md R65). -/
def opbNat (s : State) : Nat := s.opb.toNat

/-- `IN_REM` as a 64-bit unsigned count (30_encoding.md R65). -/
def inRemNat (s : State) : Nat := s.inRem.toNat

/-- `OUT_CAP` as a 64-bit unsigned count (30_encoding.md R65). -/
def outCapNat (s : State) : Nat := s.outCap.toNat

/-- `IN_BYTE(i)` (20_memory.md R41, 00_scope.md R13). -/
def inByte (s : State) (i : Nat) : Byte := winByte s.inWin i

/-- `OUT_BYTE(i)` (20_memory.md R42, 00_scope.md R13). -/
def outByte (s : State) (i : Nat) : Byte := winByte s.outWin i

/-- The range check of a validated value, always on (00_scope.md R7, 41_value.md R104). -/
def exceedsVmax (n : Nat) : Bool := Config.vmax < n

end Sys2Proof.Machine
end

