-- ==== Sys2Proof/Machine/Ops.lean ====
section
/-! DEFINITION. The operations the meanings share: `finish`, which is also how every failure is reported (CORE takes no trap,
60_exceptions.md R183), the register file as the host addresses it, and reset. -/

namespace Sys2Proof.Machine

/-- The results a command names; one it does not name is 0 (60_exceptions.md R182). -/
structure Results where
  res : Word := 0
  len : Word := 0
  inUsed : Word := 0
  outUsed : Word := 0
  outWin : Word := 0
deriving DecidableEq, Repr

/-- `finish(code, res, len, in_used, out_used, out_win)`: it ends every command and writes `STATUS` and every result register
(60_exceptions.md R182). No input register changes and no control is transferred (R183). -/
def finish (code : StatusCode) (r : Results) (s : State) : State :=
  { s with
    status := code.word, res := r.res, len := r.len, inUsed := r.inUsed, outUsed := r.outUsed, outWin := r.outWin }

/-- A command's end as the outcome of its step. -/
def finished (code : StatusCode) (r : Results) (s : State) : Host.Outcome State Fault Refusal :=
  .next (finish code r s)

/-- `if n > VMAX: finish(RANGE) else: finish(OK, …)`, the check that FROM.U64, SIZE, TO and ADD end with (41_value.md R103,
R105, R107, R109). -/
def finishInRange (n : Nat) (r : Results) (s : State) : Host.Outcome State Fault Refusal :=
  if exceedsVmax n then finished .range {} s else finished .ok r s

/-! ### The register file -/

/-- A register's byte offset in the register window (10_state.md R20). -/
def Reg.offset : Reg → BitVec 8
  | .cmd => 0x00
  | .opa => 0x08
  | .opb => 0x10
  | .inRem => 0x18
  | .inWin => 0x20
  | .outCap => 0x28
  | .status => 0x40
  | .res => 0x48
  | .len => 0x50
  | .inUsed => 0x58
  | .outUsed => 0x60
  | .outWin => 0x68

/-- The register at an offset; an offset that holds none is unmapped (10_state.md R20, R28). -/
def Reg.ofOffset (off : BitVec 8) : Option Reg :=
  match off.toNat with
  | 0x00 => some .cmd
  | 0x08 => some .opa
  | 0x10 => some .opb
  | 0x18 => some .inRem
  | 0x20 => some .inWin
  | 0x28 => some .outCap
  | 0x40 => some .status
  | 0x48 => some .res
  | 0x50 => some .len
  | 0x58 => some .inUsed
  | 0x60 => some .outUsed
  | 0x68 => some .outWin
  | _ => none

/-- The host's direction on a register (10_state.md R20). -/
def Reg.hostAccess : Reg → HostAccess
  | .cmd => .readWrite
  | .opa => .readWrite
  | .opb => .readWrite
  | .inRem => .readWrite
  | .inWin => .readWrite
  | .outCap => .readWrite
  | .status => .readOnly
  | .res => .readOnly
  | .len => .readOnly
  | .inUsed => .readOnly
  | .outUsed => .readOnly
  | .outWin => .readOnly

/-- `x[R]` (00_scope.md R13). -/
def State.getReg (s : State) : Reg → Word
  | .cmd => s.cmd
  | .opa => s.opa
  | .opb => s.opb
  | .inRem => s.inRem
  | .inWin => s.inWin
  | .outCap => s.outCap
  | .status => s.status
  | .res => s.res
  | .len => s.len
  | .inUsed => s.inUsed
  | .outUsed => s.outUsed
  | .outWin => s.outWin

/-- `x[R] <- v` (00_scope.md R13). -/
def State.setReg (s : State) (r : Reg) (v : Word) : State :=
  match r with
  | .cmd => { s with cmd := v }
  | .opa => { s with opa := v }
  | .opb => { s with opb := v }
  | .inRem => { s with inRem := v }
  | .inWin => { s with inWin := v }
  | .outCap => { s with outCap := v }
  | .status => { s with status := v }
  | .res => { s with res := v }
  | .len => { s with len := v }
  | .inUsed => { s with inUsed := v }
  | .outUsed => { s with outUsed := v }
  | .outWin => { s with outWin := v }

/-- What a host read of an offset returns: the register's value, or 0 for an unmapped offset (10_state.md R26, R28). -/
def State.readOffset (s : State) (off : BitVec 8) : Word :=
  match Reg.ofOffset off with
  | some r => s.getReg r
  | none => 0

/-- What a host write of an offset stores: a `RW` register takes the value, a `RO` register and an unmapped offset ignore it
(10_state.md R26, R27, R28). A write to `CMD` also issues a command: `hostWrite` of Machine/HostStep.lean. -/
def State.storeOffset (s : State) (off : BitVec 8) (v : Word) : State :=
  match Reg.ofOffset off with
  | some r =>
    match r.hostAccess with
    | .readWrite => s.setReg r v
    | .readOnly => s
  | none => s

/-- Why an access to the register window is refused, if it is: only a whole, aligned 64-bit slot has a meaning
(10_state.md R28, 92_eei_decisions.md D24). -/
def accessRefusal (sz : AccessSize) (off : BitVec 8) : Option Refusal :=
  match sz with
  | .bits64 => if off.toNat % 8 = 0 then none else some .unalignedAccess
  | .bits8 => some .narrowAccess
  | .bits16 => some .narrowAccess
  | .bits32 => some .narrowAccess

/-- The address of an offset of the register window (20_memory.md R43). -/
def addressOf (off : BitVec 8) : Nat := Config.coreBase + off.toNat

/-- The offset an address names in the register window, if it lies in it (20_memory.md R40, R43). -/
def offsetOfAddress (addr : Nat) : Option (BitVec 8) :=
  if Config.coreBase ≤ addr ∧ addr < Config.coreBase + Config.registerWindowBytes then
    some (BitVec.ofNat 8 (addr - Config.coreBase))
  else none

/-- Reset asserted while the host goes on: every register takes its reset value (70_reset_and_hazards.md R200), whatever it
held (R201). The host and its buffers are no part of CORE (00_scope.md R6). -/
def State.assertReset (s : State) : State := { State.reset with host := s.host }

end Sys2Proof.Machine
end

