-- ==== Sys2Proof/Machine/Classifier.lean ====
section
/-! DEFINITION. The length classifier (42_classifier.md). -/

namespace Sys2Proof.Machine

/-- `classify(x)`: the minimal length class, or none above `VMAX` (42_classifier.md R130). -/
def classify (x : Word) : Option LenClass :=
  if x.toNat ≤ 0x3F then some .one
  else if x.toNat ≤ 0x3FFF then some .two
  else if x.toNat ≤ 0x3FFF_FFFF then some .four
  else if x.toNat ≤ 0x3FFF_FFFF_FFFF_FFFF then some .eight
  else none

/-- A classification as `LEN` reports it: the length in octets, and 0 for none (42_classifier.md R131). -/
def lenResult : Option LenClass → Word
  | some c => c.word
  | none => 0

/-- `CLS`: classify a raw value; an empty result is `OK` with `LEN = 0` (42_classifier.md R131). -/
def execCls (s : State) : Host.Outcome State Fault Refusal :=
  finished .ok { len := lenResult (classify s.opa) } s

end Sys2Proof.Machine
end

