-- ==== Sys2Proof/Machine/Decoder.lean ====
section
/-! DEFINITION. The decoder (43_decoder.md). -/

namespace Sys2Proof.Machine

/-- `DEC`: decode one integer from the input window (43_decoder.md R140). An empty stream is `ABSENT` with nothing consumed
(R141); a truncated one is `ABSENT` with the tag byte consumed (R142); there is no minimality check (30_encoding.md R74). -/
def execDec (s : State) : Host.Outcome State Fault Refusal :=
  let rem := inRemNat s
  let c := firstClass s.inWin
  if rem = 0 then finished .absent {} s
  else if rem < c.octets then finished .absent { inUsed := 1 } s
  else finished .ok { res := wireValue s.inWin c, len := c.word, inUsed := c.word } s

end Sys2Proof.Machine
end

