-- ==== Sys2Proof/Machine/Encoder.lean ====
section
/-! DEFINITION. The encoder (44_encoder.md). -/

namespace Sys2Proof.Machine

/-- `ENC`: encode one value into the output window (44_encoder.md R160). The range check comes before the capacity check
(R163), and a failure produces no byte (R164). -/
def execEnc (s : State) : Host.Outcome State Fault Refusal :=
  match classify s.opa with
  | none => finished .oversized {} s
  | some c =>
    if outCapNat s < c.octets then finished .noSpace {} s
    else
      finished .ok
        { len := c.word, outUsed := c.word, outWin := packWindow (wireOctets c (opaNat s)) } s

end Sys2Proof.Machine
end

