-- ==== Sys2Proof/Machine/Value.lean ====
section
/-! DEFINITION. The validated value type commands: construction, size, extraction and bounded addition (41_value.md). -/

namespace Sys2Proof.Machine

/-- `FROM.U8` (41_value.md R100). -/
def execFromU8 (s : State) : Host.Outcome State Fault Refusal :=
  finished .ok { res := opaNarrow 8 s } s

/-- `FROM.U16` (41_value.md R101). -/
def execFromU16 (s : State) : Host.Outcome State Fault Refusal :=
  finished .ok { res := opaNarrow 16 s } s

/-- `FROM.U32` (41_value.md R102; it never fails, 90_conflicts.md C1). -/
def execFromU32 (s : State) : Host.Outcome State Fault Refusal :=
  finished .ok { res := opaNarrow 32 s } s

/-- `FROM.U64`, also `FROM.SZ` (41_value.md R103). -/
def execFromU64 (s : State) : Host.Outcome State Fault Refusal :=
  finishInRange (opaNat s) { res := s.opa } s

/-- `SIZE` (41_value.md R105). -/
def execSize (s : State) : Host.Outcome State Fault Refusal :=
  finishInRange (opaNat s) { len := lenResult (classify s.opa) } s

/-- `TO`, also `TO.U64` and `TO.SZ` (41_value.md R107). -/
def execToVal (s : State) : Host.Outcome State Fault Refusal :=
  finishInRange (opaNat s) { res := s.opa } s

/-- `ADD`: the exact sum of two validated values, checked before it is stored (41_value.md R109, 00_scope.md R12). -/
def execAdd (s : State) : Host.Outcome State Fault Refusal :=
  let a := opaNat s
  let b := opbNat s
  if exceedsVmax a || exceedsVmax b then finished .range {} s
  else finishInRange (a + b) { res := BitVec.ofNat 64 (a + b) } s

/-- `ADDLEN`: a validated value plus a native length; a sum beyond `2^64 − 1` is `LENOVF` (41_value.md R111, R112). -/
def execAddlen (s : State) : Host.Outcome State Fault Refusal :=
  let a := opaNat s
  let sum := a + opbNat s
  if exceedsVmax a then finished .range {} s
  else if Config.nativeMax < sum then finished .lenOvf {} s
  else finished .ok { res := BitVec.ofNat 64 sum } s

end Sys2Proof.Machine
end

