-- ==== Sys2Proof/Machine/Dispatch.lean ====
section
/-! DEFINITION. From a command to its meaning: one arm per row of 30_encoding.md R61. -/

namespace Sys2Proof.Machine

def exec (i : Instr) (s : State) : Host.Outcome State Fault Refusal :=
  match i with
  | .fromU8 => Sys2Proof.Machine.execFromU8 s
  | .fromU16 => Sys2Proof.Machine.execFromU16 s
  | .fromU32 => Sys2Proof.Machine.execFromU32 s
  | .fromU64 => Sys2Proof.Machine.execFromU64 s
  | .size => Sys2Proof.Machine.execSize s
  | .toVal => Sys2Proof.Machine.execToVal s
  | .add => Sys2Proof.Machine.execAdd s
  | .addlen => Sys2Proof.Machine.execAddlen s
  | .cls => Sys2Proof.Machine.execCls s
  | .dec => Sys2Proof.Machine.execDec s
  | .enc => Sys2Proof.Machine.execEnc s

end Sys2Proof.Machine
end

