-- ==== Sys2Proof/Machine/Streams.lean ====
section
/-! DEFINITION. The host's part of a transfer: the stream macros and the host's acts on its own buffers (20_memory.md R46,
R48; 30_encoding.md R66). DESIGN CHOICE: each stream macro is one step, so nothing lands between its accesses (assumption
log 14). -/

namespace Sys2Proof.Machine

/-- The remaining length `|B| − c` of an input stream (20_memory.md R46). -/
def InStream.remaining (i : InStream) : Nat := i.bytes.length - i.cursor

/-- The window the host presents: `B[c+i]` at every index the stream reaches, and the host's own choice beyond
(20_memory.md R46, R47). -/
def InStream.window (i : InStream) (pad : Word) : Word :=
  packWindow ((List.range Config.windowBytes).map fun k => (i.bytes[i.cursor + k]?).getD (winByte pad k))

/-- The bytes `OUT_BYTE(0)` to `OUT_BYTE(OUT_USED − 1)` the host appends (20_memory.md R46). -/
def producedBytes (s : State) : List Byte := (List.range s.outUsed.toNat).map (outByte s)

/-- The host with another input stream. -/
def State.withInput (s : State) (i : InStream) : State := { s with host := { s.host with input := i } }

/-- The host with another sink. -/
def State.withSink (s : State) (o : OutSink) : State := { s with host := { s.host with sink := o } }

/-- `in.present` (20_memory.md R46): `IN_REM` takes the remaining length and `IN_WIN` the next bytes.
DESIGN CHOICE: both writes land in one step (assumption log 14). -/
def inPresent (pad : Word) (s : State) : Host.Outcome State Fault Refusal :=
  let i := s.host.input
  if Config.nativeMax < i.remaining then .fault .countTooWide
  else .next { s with inRem := BitVec.ofNat 64 i.remaining, inWin := i.window pad }

/-- The host moves its cursor to `c`, which must stay within `0 ≤ c ≤ |B|` (20_memory.md R46). -/
def inSeek (c : Nat) (s : State) : Host.Outcome State Fault Refusal :=
  if s.host.input.bytes.length < c then .fault .cursorPastEnd
  else .next (s.withInput { s.host.input with cursor := c })

/-- `in.advance`: `c <- c + IN_USED` (20_memory.md R46). DESIGN CHOICE: the host's look at `IN_USED` is no `rd` line, so it is not
"a register just read" for `COND` (assumption log 6), and the cursor moves in the same step (assumption log 14). -/
def inAdvance (s : State) : Host.Outcome State Fault Refusal :=
  inSeek (s.host.input.cursor + s.inUsed.toNat) s

/-- More bytes arrive at the end of the input buffer (20_memory.md R48). -/
def inFeed (bs : List Byte) (s : State) : Host.Outcome State Fault Refusal :=
  .next (s.withInput { s.host.input with bytes := s.host.input.bytes ++ bs })

/-- `out.present`: `OUT_CAP` takes the sink's remaining capacity (20_memory.md R46), in one step (DESIGN CHOICE, assumption
log 14). -/
def outPresent (s : State) : Host.Outcome State Fault Refusal :=
  let k := s.host.sink.capacity
  if Config.nativeMax < k then .fault .countTooWide
  else .next { s with outCap := BitVec.ofNat 64 k }

/-- `out.append`: the produced bytes go to the write position, which moves on, and the capacity shrinks by `OUT_USED`
(20_memory.md R46). There is no byte beyond `OUT_BYTE(7)` and no room beyond the capacity (assumption log 5).
DESIGN CHOICE: the host's look at `OUT_USED` and `OUT_WIN` is no `rd` line, so it is not "a register just read" for `COND`
(assumption log 6); and both are taken, and the sink moved on, in one step: no other agent's access and no reset lands between
them (assumption log 14). -/
def outAppend (s : State) : Host.Outcome State Fault Refusal :=
  let o := s.host.sink
  if Config.windowBytes < s.outUsed.toNat then .fault .windowOverrun
  else if o.capacity < s.outUsed.toNat then .fault .sinkOverrun
  else .next (s.withSink { written := o.written ++ producedBytes s, capacity := o.capacity - s.outUsed.toNat })

/-- The host grows its buffer: more capacity, the same bytes (20_memory.md R48). -/
def outGrow (n : Nat) (s : State) : Host.Outcome State Fault Refusal :=
  .next (s.withSink { s.host.sink with capacity := s.host.sink.capacity + n })

/-- The host takes the written bytes away and gives the sink a capacity (20_memory.md R48: "flush and retry"). -/
def outFlush (cap : Nat) (s : State) : Host.Outcome State Fault Refusal :=
  .next (s.withSink { written := [], capacity := cap })

/-- The host copies the sink's bytes to its input buffer, cursor 0 (95_test_vectors.md P1). -/
def outToIn (s : State) : Host.Outcome State Fault Refusal :=
  .next (s.withInput { bytes := s.host.sink.written, cursor := 0 })

end Sys2Proof.Machine
end

