-- ==== Sys2Proof/Machine/HostStep.lean ====
section
/-! DEFINITION. What one host action does: reads, writes, the command a write to `CMD` issues, and the lines of a host program
(10_state.md R25 to R28, 20_memory.md R52, R53, 30_encoding.md R66). -/

namespace Sys2Proof.Machine

/-- A host write to `CMD`: `CMD` holds the word, and the word's command runs as one atomic step; an illegal word performs no
operation and finishes `ILLEGAL` (10_state.md R23, R25; 30_encoding.md R63). -/
def issueCommand (word : Word) (s : State) : Host.Outcome State Fault Refusal :=
  let s := s.setReg .cmd word
  match decode word with
  | .ok i => exec i s
  | .error _ => finished .illegal {} s

/-- A host write of a whole slot (10_state.md R25 to R28). -/
def hostWrite (off : BitVec 8) (v : Word) (s : State) : Host.Outcome State Fault Refusal :=
  if off = Reg.cmd.offset then issueCommand v s else .next (s.storeOffset off v)

/-- A host read of a whole slot: the host has the value, and nothing of CORE changes (20_memory.md R52). -/
def hostRead (off : BitVec 8) (s : State) : Host.Outcome State Fault Refusal :=
  .next { s with host := { s.host with lastRead := some (s.readOffset off) } }

/-- A host write of any width at any offset (10_state.md R28). -/
def writeAt (sz : AccessSize) (off : BitVec 8) (v : Word) (s : State) : Host.Outcome State Fault Refusal :=
  match accessRefusal sz off with
  | some r => .refused r
  | none => hostWrite off v s

/-- A host read of any width at any offset (10_state.md R28). -/
def readAt (sz : AccessSize) (off : BitVec 8) (s : State) : Host.Outcome State Fault Refusal :=
  match accessRefusal sz off with
  | some r => .refused r
  | none => hostRead off s

/-- A host write at a platform address (20_memory.md R43). -/
def busWrite (sz : AccessSize) (addr : Nat) (v : Word) (s : State) : Host.Outcome State Fault Refusal :=
  match offsetOfAddress addr with
  | some off => writeAt sz off v s
  | none => .fault .outsideWindow

/-- A host read at a platform address (20_memory.md R43). -/
def busRead (sz : AccessSize) (addr : Nat) (s : State) : Host.Outcome State Fault Refusal :=
  match offsetOfAddress addr with
  | some off => readAt sz off s
  | none => .fault .outsideWindow

/-! ### The host's own values and control flow (30_encoding.md R66) -/

/-- A variable of the host, if it has been set. -/
def lookupVar (n : Nat) : List (Nat × Word) → Option Word
  | [] => none
  | (m, v) :: rest => if n = m then some v else lookupVar n rest

/-- The variables with one more set; their numbers stay strictly rising. -/
def setVar (n : Nat) (v : Word) : List (Nat × Word) → List (Nat × Word)
  | [] => [(n, v)]
  | (m, w) :: rest =>
    if n < m then (n, v) :: (m, w) :: rest
    else if n = m then (n, v) :: rest
    else (m, w) :: setVar n v rest

/-- The value a host line supplies, if the host has it. -/
def hostValue (v : HostValue) (h : HostAgent) : Option Word :=
  match v with
  | .lit w => some w
  | .justRead => h.lastRead
  | .var n => lookupVar n h.vars

/-- Whether `COND` holds of the value just read; every comparison is unsigned (00_scope.md R11). -/
def condHolds (c : Cond) (v : Word) : Bool :=
  match c.op with
  | .eq => v = c.const
  | .ne => v ≠ c.const
  | .lt => v.toNat < c.const.toNat
  | .le => v.toNat ≤ c.const.toNat
  | .gt => c.const.toNat < v.toNat
  | .ge => c.const.toNat ≤ v.toNat

/-- The number of the first line of a program that declares a label. -/
def labelLine (l : Nat) (p : List HostLine) : Option Nat := p.findIdx? (· == .label l)

/-- The host goes to a line. -/
def State.atLine (s : State) (n : Nat) : State := { s with host := { s.host with line := n } }

/-- The host goes to its next line. -/
def State.nextLine (s : State) : State := s.atLine (s.host.line + 1)

/-- `wr REG, value`. -/
def wrLine (r : Reg) (v : HostValue) (s : State) : Host.Outcome State Fault Refusal :=
  match hostValue v s.host with
  | some w => hostWrite r.offset w s
  | none => .fault .hostValueUnset

/-- The host sets one of its variables. -/
def assignLine (n : Nat) (v : HostValue) (s : State) : Host.Outcome State Fault Refusal :=
  match hostValue v s.host with
  | some w => .next { s with host := { s.host with vars := setVar n w s.host.vars } }
  | none => .fault .hostValueUnset

/-- `goto label`: the host's next line is the first one that declares the label. -/
def gotoLine (l : Nat) (s : State) : Host.Outcome State Fault Refusal :=
  match labelLine l s.host.program with
  | some n => .next (s.atLine n)
  | none => .fault .unknownLabel

/-- `if COND goto label`, at a state whose line is already the next one. DESIGN CHOICE: the register just read is the one that the
last host read returned, however many lines ago; `in.advance` and `out.append` do not count as reads (assumption log 6). -/
def ifGotoLine (c : Cond) (l : Nat) (s : State) : Host.Outcome State Fault Refusal :=
  match s.host.lastRead with
  | none => .fault .hostValueUnset
  | some v => if condHolds c v then gotoLine l s else .next s

/-- One line of a host program at a state whose line is already the next one; `halt` is the end of the program, so it alone
stays (30_encoding.md R66). -/
def performLine (line : HostLine) (s : State) : Host.Outcome State Fault Refusal :=
  match line with
  | .command i => hostWrite Reg.cmd.offset (encode i) s.nextLine
  | .wr r v => wrLine r v s.nextLine
  | .rd r => hostRead r.offset s.nextLine
  | .label _ => .next s.nextLine
  | .ifGoto c l => ifGotoLine c l s.nextLine
  | .goto l => gotoLine l s.nextLine
  | .halt => .next s
  | .inPresent pad => inPresent pad s.nextLine
  | .inAdvance => inAdvance s.nextLine
  | .outPresent => outPresent s.nextLine
  | .outAppend => outAppend s.nextLine
  | .readAt sz off => readAt sz off s.nextLine
  | .writeAt sz off v => writeAt sz off v s.nextLine
  | .busRead sz addr => busRead sz addr s.nextLine
  | .busWrite sz addr v => busWrite sz addr v s.nextLine
  | .assign n v => assignLine n v s.nextLine
  | .inFeed bs => inFeed bs s.nextLine
  | .inSeek c => inSeek c s.nextLine
  | .outGrow n => outGrow n s.nextLine
  | .outFlush cap => outFlush cap s.nextLine
  | .outToIn => outToIn s.nextLine
  | .reset => .next s.nextLine.assertReset

/-- The line the host performs next; none when its program has ended. -/
def fetchLine (s : State) : Option HostLine := s.host.program[s.host.line]?

/-- One step: the host performs its next line. When it has none, CORE "holds its registers and does nothing"
(60_exceptions.md R192). -/
def hostStep (s : State) : Host.Outcome State Fault Refusal :=
  match fetchLine s with
  | some line => performLine line s
  | none => .next s

/-- The host with one more line, put where it performs its next one; the lines after it follow. -/
def insertLine (line : HostLine) (h : HostAgent) : HostAgent :=
  let before := h.program.take h.line
  { h with program := before ++ line :: h.program.drop h.line, line := before.length }

/-- The host about to write a row's word to `CMD`. -/
def placeCommandWord (nbits w : Nat) (s : State) : State :=
  { s with host := insertLine (.wr .cmd (.lit (tableWord nbits w))) s.host }

end Sys2Proof.Machine
end

