-- ==== Sys2Proof/Machine/Step.lean ====
section
/-! DEFINITION. One step of the machine, and a word placed where the next step issues it. -/

namespace Sys2Proof.Machine

/-- One step: one host action on CORE, a command among them (10_state.md R25). CORE fetches nothing: "The only way to run a
command is a host write to CMD" (20_memory.md R55). -/
def step (s : State) : Host.Outcome State Fault Refusal := hostStep s

/-- The machine whose very next step is the host's write of this word to `CMD` (assumption log 1). -/
def State.withFetchWord (s : State) (nbits w : Nat) : State := placeCommandWord nbits w s

end Sys2Proof.Machine
end

