-- ==== Sys2Proof/Machine/Assembler.lean ====
section
/-! DEFINITION. The assembler's mnemonics and the pseudo-instructions (30_encoding.md R66, R67). -/

namespace Sys2Proof.Machine

/-- The assembler spelling of a command, upper case (30_encoding.md R61, R66). -/
def mnemonic : Instr → String
  | .fromU8 => "FROM.U8"
  | .fromU16 => "FROM.U16"
  | .fromU32 => "FROM.U32"
  | .fromU64 => "FROM.U64"
  | .size => "SIZE"
  | .toVal => "TO"
  | .add => "ADD"
  | .addlen => "ADDLEN"
  | .cls => "CLS"
  | .dec => "DEC"
  | .enc => "ENC"

/-- The pseudo-mnemonics that are another spelling of one command (30_encoding.md R67). -/
def otherSpellings : List (String × Instr) :=
  [("FROM.SZ", .fromU64), ("TO.U64", .toVal), ("TO.SZ", .toVal)]

/-- Every spelling of a command line: the mnemonics of 30_encoding.md R61 and the pseudo-mnemonics of R67. -/
def spellings : List (String × Instr) := Instr.all.map (fun i => (mnemonic i, i)) ++ otherSpellings

/-- The command a command line names, if it names one (30_encoding.md R66). -/
def parseMnemonic (m : String) : Option Instr := spellings.lookup m

/-- "Assembling it gives the command word in rule R61's third column" (30_encoding.md R66). -/
def assemble (m : String) : Option Word := (parseMnemonic m).map encode

/-- The width of a FROM command with an operand (30_encoding.md R67, `FROM.Uw v`). -/
inductive FromWidth where
  | u8 | u16 | u32 | u64
deriving DecidableEq, Repr

/-- The FROM command of a width (30_encoding.md R61). -/
def FromWidth.instr : FromWidth → Instr
  | .u8 => .fromU8
  | .u16 => .fromU16
  | .u32 => .fromU32
  | .u64 => .fromU64

/-- The pseudo-instructions of 30_encoding.md R67, in the table's order. -/
inductive Pseudo where
  /-- `FROM.SZ`. -/
  | fromSz
  /-- `TO.U64`. -/
  | toU64
  /-- `TO.SZ`. -/
  | toSz
  /-- `LENADD n, v`. -/
  | lenadd (n v : HostValue)
  /-- `FROM.Uw v`. -/
  | fromValue (w : FromWidth) (v : HostValue)
  /-- `SIZE v`. -/
  | sizeValue (v : HostValue)
  /-- `TO v`. -/
  | toValue (v : HostValue)
  /-- `CLS v`. -/
  | clsValue (v : HostValue)
  /-- `ENC v`. -/
  | encValue (v : HostValue)
  /-- `ADD a, b`. -/
  | addValues (a b : HostValue)
  /-- `ADDLEN a, n`. -/
  | addlenValues (a n : HostValue)
  /-- `DEC.S`: one decode step on the input stream. The bytes the host need not write are those of `pad`. -/
  | decS (pad : Word)
  /-- `ENC.S v`: one encode step onto the output sink. -/
  | encS (v : HostValue)
deriving DecidableEq, Repr

/-- `wr OPA, v` and the command: operand sugar (30_encoding.md R67). -/
def withOpa (v : HostValue) (i : Instr) : List HostLine := [.wr .opa v, .command i]

/-- `wr OPA, a`, `wr OPB, b` and the command (30_encoding.md R67). -/
def withOpaOpb (a b : HostValue) (i : Instr) : List HostLine := [.wr .opa a, .wr .opb b, .command i]

/-- The expansion of a pseudo-instruction (30_encoding.md R67). -/
def Pseudo.expand : Pseudo → List HostLine
  | .fromSz => [.command .fromU64]
  | .toU64 => [.command .toVal]
  | .toSz => [.command .toVal]
  | .lenadd n v => withOpaOpb v n .addlen
  | .fromValue w v => withOpa v w.instr
  | .sizeValue v => withOpa v .size
  | .toValue v => withOpa v .toVal
  | .clsValue v => withOpa v .cls
  | .encValue v => withOpa v .enc
  | .addValues a b => withOpaOpb a b .add
  | .addlenValues a n => withOpaOpb a n .addlen
  | .decS pad => [.inPresent pad, .command .dec, .inAdvance]
  | .encS v => [.wr .opa v, .outPresent, .command .enc, .outAppend]

end Sys2Proof.Machine
end

