-- ==== Sys2Proof/Safety.lean ====
section
/-! DEFINITION. What the registers and the host's streams look like in every state a run can reach, what a safe run is, and
the words the statements are written in. -/

namespace Sys2Proof.Machine

/-! ### Words for the statements -/

/-- The state with these six words in the result registers; the input registers and the host are as they were. -/
def State.withResults (s : State) (status res len inUsed outUsed outWin : Word) : State :=
  { s with
    status := status, res := res, len := len, inUsed := inUsed, outUsed := outUsed, outWin := outWin }

/-- Two states give a command the same operands: the column "reads" of 30_encoding.md R62. -/
def sameOperands (i : Instr) (s s' : State) : Prop :=
  match i with
  | .fromU8 => s.opa.toNat % 2 ^ 8 = s'.opa.toNat % 2 ^ 8
  | .fromU16 => s.opa.toNat % 2 ^ 16 = s'.opa.toNat % 2 ^ 16
  | .fromU32 => s.opa.toNat % 2 ^ 32 = s'.opa.toNat % 2 ^ 32
  | .fromU64 => s.opa = s'.opa
  | .size => s.opa = s'.opa
  | .toVal => s.opa = s'.opa
  | .add => s.opa = s'.opa ∧ s.opb = s'.opb
  | .addlen => s.opa = s'.opa ∧ s.opb = s'.opb
  | .cls => s.opa = s'.opa
  | .dec => s.inRem = s'.inRem ∧ ∀ k < 1 <<< (s.inWin.toNat / 2 ^ 62), winByte s.inWin k = winByte s'.inWin k
  | .enc => s.opa = s'.opa ∧ s.outCap = s'.outCap

/-- The registers a command writes a meaningful value to, beside `STATUS` (30_encoding.md R62). -/
def meaningfulResults : Instr → List Reg
  | .fromU8 => [.res]
  | .fromU16 => [.res]
  | .fromU32 => [.res]
  | .fromU64 => [.res]
  | .size => [.len]
  | .toVal => [.res]
  | .add => [.res]
  | .addlen => [.res]
  | .cls => [.len]
  | .dec => [.res, .len, .inUsed]
  | .enc => [.len, .outUsed, .outWin]

/-- The status codes a command can report beside `OK` (60_exceptions.md R181). -/
def failureCodes : Instr → List StatusCode
  | .fromU8 => []
  | .fromU16 => []
  | .fromU32 => []
  | .fromU64 => [.range]
  | .size => [.range]
  | .toVal => [.range]
  | .add => [.range]
  | .addlen => [.range, .lenOvf]
  | .cls => []
  | .dec => [.absent]
  | .enc => [.oversized, .noSpace]

/-- Whether a host line writes `CMD`, or asserts reset: the two events that change a result register (10_state.md R27). -/
def HostLine.mayChangeResults : HostLine → Bool
  | .command _ => true
  | .wr r _ => r = .cmd
  | .writeAt _ off _ => off = Reg.cmd.offset
  | .busWrite _ addr _ => addr = Config.coreBase
  | .reset => true
  | _ => false

/-- Whether a host line writes an input register, or asserts reset (10_state.md R26). The stream macros `in.present` and
`out.present` are host writes (30_encoding.md R66). -/
def HostLine.mayWriteInput (r : Reg) : HostLine → Bool
  | .command _ => r = .cmd
  | .wr q _ => r = q
  | .writeAt _ off _ => off = r.offset
  | .busWrite _ addr _ => addr = addressOf r.offset
  | .inPresent _ => r = .inRem || r = .inWin
  | .outPresent => r = .outCap
  | .reset => true
  | _ => false

/-- The host's next line writes this word to `CMD`: a command line; `wr CMD` with a constant, the value just read or a variable
(30_encoding.md R66, assumption log 6); a 64-bit write at offset 0 (10_state.md R20, R28); or one at `CORE_BASE` (20_memory.md
R43). -/
def writesToCmd (word : Word) (s : State) : Prop :=
  (∃ i, fetchLine s = some (.command i) ∧ word = encode i) ∨
    (∃ v, fetchLine s = some (.wr .cmd v) ∧ hostValue v s.host = some word) ∨
    fetchLine s = some (.writeAt .bits64 Reg.cmd.offset word) ∨
    fetchLine s = some (.busWrite .bits64 (addressOf Reg.cmd.offset) word)

/-! ### The invariant -/

/-- A length register holds 0, 1, 2, 4 or 8 (10_state.md R27). -/
abbrev lengthLegal (w : Word) : Prop := w = 0 ∨ w = 1 ∨ w = 2 ∨ w = 4 ∨ w = 8

/-- The ranges of the result registers after any command (10_state.md R24, R27; 20_memory.md R42). -/
abbrev State.resultsLegal (s : State) : Prop :=
  s.status.toNat ≤ 6 ∧ lengthLegal s.len ∧ lengthLegal s.inUsed ∧ lengthLegal s.outUsed ∧
    ∀ i < 8, s.outUsed.toNat ≤ i → winByte s.outWin i = 0

/-- After a failure the results are zero, but for the tag byte a truncated `DEC` consumes (60_exceptions.md R182). -/
abbrev State.failureLegal (s : State) : Prop :=
  s.status ≠ StatusCode.ok.word →
    s.res = 0 ∧ s.len = 0 ∧ s.outUsed = 0 ∧ s.outWin = 0 ∧
      (s.inUsed = 0 ∨ s.inUsed = 1 ∧ s.status = StatusCode.absent.word)

/-- The host's cursor lies in its buffer: `0 ≤ c ≤ |B|` (20_memory.md R46). -/
abbrev State.cursorLegal (s : State) : Prop := s.host.input.cursor ≤ s.host.input.bytes.length

/-- The host's variables are listed once each, in rising order. -/
abbrev State.varsLegal (s : State) : Prop := (s.host.vars.map Prod.fst).Pairwise (· < ·)

/-- The invariant of the machine. -/
abbrev State.legal (s : State) : Prop :=
  s.resultsLegal ∧ s.failureLegal ∧ s.cursorLegal ∧ s.varsLegal

/-- The step answers a next state: neither a fault of the host nor a refused access. -/
def stepCompletes (s : State) : Bool :=
  match step s with
  | .next _ => true
  | .fault _ => false
  | .refused _ => false

/-- The next `n` steps all complete. -/
def safeFor : Nat → State → Bool
  | 0, _ => true
  | n + 1, s =>
    match step s with
    | .next t => safeFor n t
    | .fault _ => false
    | .refused _ => false

end Sys2Proof.Machine
end

