-- ==== Sys2Proof/Certificates/Slice0/Obligations.lean ====
section
/-! DEFINITION. What is claimed of the model, from the numbered rules of the spec. Words written as numerals are the spec's own:
`VMAX = 2^62 − 1` and the status codes OK = 0, ABSENT = 1, OVERSIZED = 2, NOSPACE = 3, RANGE = 4, LENOVF = 5, ILLEGAL = 6. -/

open Sys2Proof Sys2Proof.Machine

/-! ### Command words -/

/-- Decoding a command's own word gives the command. -/
def Obligations.DecodeOfEncodeIsTheCommand : Prop :=
  ∀ i : Instr, decode (encode i) = .ok i

/-- 30_encoding.md R61: the table of command words and mnemonics; a word selects the row whose `OP` and `W` it has, provided
its `RSV` is zero. -/
def Obligations.CommandWordSelectsItsRow : Prop :=
  (Instr.all.map fun i => (mnemonic i, encode i)) =
      [("FROM.U8", 0x01), ("FROM.U16", 0x11), ("FROM.U32", 0x21), ("FROM.U64", 0x31), ("SIZE", 0x02), ("TO", 0x03),
        ("ADD", 0x04), ("ADDLEN", 0x05), ("CLS", 0x06), ("DEC", 0x07), ("ENC", 0x08)] ∧
    ∀ (word : Word) (i : Instr),
      decode word = .ok i ↔
        word.toNat / 64 = 0 ∧ word.toNat / 16 % 4 = (encode i).toNat / 16 % 4 ∧ word.toNat % 16 = (encode i).toNat % 16

/-- 30_encoding.md R63: which words are illegal, what an illegal word does, and that every other word is exactly one row. -/
def Obligations.IllegalWordsAreTheReservedOnes : Prop :=
  ∀ word : Word,
    ((word.toNat / 64 ≠ 0 ∨ word.toNat % 16 = 0 ∨ 9 ≤ word.toNat % 16 ∨
        word.toNat / 16 % 4 ≠ 0 ∧ word.toNat % 16 ≠ 1) →
      (∃ e, decode word = .error e) ∧
        ∀ s : State, issueCommand word s = .next ({ s with cmd := word }.withResults 6 0 0 0 0 0)) ∧
    (¬(word.toNat / 64 ≠ 0 ∨ word.toNat % 16 = 0 ∨ 9 ≤ word.toNat % 16 ∨
        word.toNat / 16 % 4 ≠ 0 ∧ word.toNat % 16 ≠ 1) →
      ∃ i, decode word = .ok i ∧ ∀ j, word = encode j ↔ j = i)

/-- A few command words written out bit by bit decode to the command they stand for, and three illegal ones to none. -/
def Obligations.WrittenOutWordsDecode : Prop :=
  decode 0b110001 = .ok .fromU64 ∧ decode 0b000101 = .ok .addlen ∧ decode 0b000110 = .ok .cls ∧
    decode 0b000111 = .ok .dec ∧ decode 0b001000 = .ok .enc ∧ decode 0b010010 = .error .badWidth ∧
    decode 0b001001 = .error .badOpcode ∧ decode 0b1000111 = .error .reservedBits

/-- Every legal command word passes the three checks of 30_encoding.md R63 and every illegal one fails one of them. -/
def Obligations.DecodableWordsAreTheWellFormedOnes : Prop :=
  ∀ word : Word, (cmdFields word).wf = true ↔ ∃ i, decode word = .ok i

/-! ### Validated value commands -/

/-- 41_value.md R100, R101, R102 and 30_encoding.md R64: a narrow FROM takes the low bits of `OPA`, ignores the others and
always succeeds. -/
def Obligations.NarrowFromTakesTheLowBits : Prop :=
  ∀ s : State,
    exec .fromU8 s = .next (s.withResults 0 (BitVec.ofNat 64 (s.opa.toNat % 2 ^ 8)) 0 0 0 0) ∧
    exec .fromU16 s = .next (s.withResults 0 (BitVec.ofNat 64 (s.opa.toNat % 2 ^ 16)) 0 0 0 0) ∧
    exec .fromU32 s = .next (s.withResults 0 (BitVec.ofNat 64 (s.opa.toNat % 2 ^ 32)) 0 0 0 0)

/-- 41_value.md R103: FROM.U64 succeeds exactly up to `VMAX`, that is when bits 63 and 62 of `OPA` are both 0. -/
def Obligations.FromU64ChecksTheRange : Prop :=
  ∀ s : State,
    (s.opa.toNat ≤ 2 ^ 62 - 1 → exec .fromU64 s = .next (s.withResults 0 s.opa 0 0 0 0)) ∧
    (2 ^ 62 - 1 < s.opa.toNat → exec .fromU64 s = .next (s.withResults 4 0 0 0 0 0)) ∧
    (2 ^ 62 - 1 < s.opa.toNat ↔ s.opa.getLsbD 63 = true ∨ s.opa.getLsbD 62 = true)

/-- 41_value.md R105: SIZE gives the minimal length of a validated value, and RANGE on any other. -/
def Obligations.SizeGivesTheMinimalLength : Prop :=
  ∀ s : State,
    (s.opa.toNat ≤ 63 → exec .size s = .next (s.withResults 0 0 1 0 0 0)) ∧
    (64 ≤ s.opa.toNat → s.opa.toNat ≤ 16383 → exec .size s = .next (s.withResults 0 0 2 0 0 0)) ∧
    (16384 ≤ s.opa.toNat → s.opa.toNat ≤ 1073741823 → exec .size s = .next (s.withResults 0 0 4 0 0 0)) ∧
    (1073741824 ≤ s.opa.toNat → s.opa.toNat ≤ 2 ^ 62 - 1 → exec .size s = .next (s.withResults 0 0 8 0 0 0)) ∧
    (2 ^ 62 - 1 < s.opa.toNat → exec .size s = .next (s.withResults 4 0 0 0 0 0))

/-- 41_value.md R106: with `OK`, SIZE gives the same `LEN` as CLS for the same `OPA`, and it is never 0. -/
def Obligations.SizeAgreesWithClassify : Prop :=
  ∀ s : State, ∃ t u,
    exec .size s = .next t ∧ exec .cls s = .next u ∧ (t.status = 0 → t.len = u.len ∧ t.len ≠ 0) ∧
      (s.opa.toNat ≤ 2 ^ 62 - 1 → classify s.opa ≠ none)

/-- 41_value.md R107: TO extracts a validated value bit for bit, and gives RANGE on any other. -/
def Obligations.ToExtractsAValidatedValue : Prop :=
  ∀ s : State,
    (s.opa.toNat ≤ 2 ^ 62 - 1 → exec .toVal s = .next (s.withResults 0 s.opa 0 0 0 0)) ∧
    (2 ^ 62 - 1 < s.opa.toNat → exec .toVal s = .next (s.withResults 4 0 0 0 0 0))

/-- 41_value.md R109: ADD gives the exact sum, or RANGE when an operand or the sum exceeds `VMAX`. -/
def Obligations.AddIsExactOrRange : Prop :=
  ∀ s : State,
    (s.opa.toNat ≤ 2 ^ 62 - 1 → s.opb.toNat ≤ 2 ^ 62 - 1 → s.opa.toNat + s.opb.toNat ≤ 2 ^ 62 - 1 →
      exec .add s = .next (s.withResults 0 (BitVec.ofNat 64 (s.opa.toNat + s.opb.toNat)) 0 0 0 0)) ∧
    (2 ^ 62 - 1 < s.opa.toNat ∨ 2 ^ 62 - 1 < s.opb.toNat ∨ 2 ^ 62 - 1 < s.opa.toNat + s.opb.toNat →
      exec .add s = .next (s.withResults 4 0 0 0 0 0))

/-- 41_value.md R110: ADD commutes, 0 is its unit, it is `OK` exactly within the bound, and an `OK` sum is never reduced. -/
def Obligations.AddCommutesAndNeverWraps : Prop :=
  ∀ (s : State) (a b : Word), ∃ t u z,
    exec .add { s with opa := a, opb := b } = .next t ∧
    exec .add { s with opa := b, opb := a } = .next u ∧
    exec .add { s with opa := a, opb := 0 } = .next z ∧
    (t.status = 0 ↔ a.toNat ≤ 2 ^ 62 - 1 ∧ b.toNat ≤ 2 ^ 62 - 1 ∧ a.toNat + b.toNat ≤ 2 ^ 62 - 1) ∧
    (t.status = 0 → u.status = 0 → t.res = u.res) ∧
    (t.status = 0 → t.res.toNat = a.toNat + b.toNat) ∧
    (z.status = 0 → z.res = a)

/-- 41_value.md R111, R112: ADDLEN gives the exact native sum, RANGE when `OPA` is not validated, and otherwise LENOVF, never a
wrapped sum, when the sum exceeds `2^64 − 1`. -/
def Obligations.AddlenIsExactOrReportsOverflow : Prop :=
  ∀ s : State,
    (2 ^ 62 - 1 < s.opa.toNat → exec .addlen s = .next (s.withResults 4 0 0 0 0 0)) ∧
    (s.opa.toNat ≤ 2 ^ 62 - 1 → 2 ^ 64 - 1 < s.opa.toNat + s.opb.toNat →
      exec .addlen s = .next (s.withResults 5 0 0 0 0 0)) ∧
    (s.opa.toNat ≤ 2 ^ 62 - 1 → s.opa.toNat + s.opb.toNat ≤ 2 ^ 64 - 1 →
      exec .addlen s = .next (s.withResults 0 (BitVec.ofNat 64 (s.opa.toNat + s.opb.toNat)) 0 0 0 0))

/-- 41_value.md R104: whatever the state, no command but ADDLEN, whose result is a native size, returns a value above `VMAX`
with `CODE = OK`, and no state bypasses the check of a validated operand. -/
def Obligations.NoOkValueExceedsTheBound : Prop :=
  (∀ (i : Instr) (s : State), i ≠ .addlen →
      ∃ t, exec i s = .next t ∧ (t.status = 0 → t.res.toNat ≤ 2 ^ 62 - 1)) ∧
    (∀ (i : Instr) (s : State), i ∈ [.fromU64, .size, .toVal, .add, .addlen] → 2 ^ 62 - 1 < s.opa.toNat →
      exec i s = .next (s.withResults 4 0 0 0 0 0)) ∧
    ∀ s : State, 2 ^ 62 - 1 < s.opb.toNat → exec .add s = .next (s.withResults 4 0 0 0 0 0)

/-! ### Classifier -/

/-- 42_classifier.md R130: the buckets, and the bit tests they are equivalent to. -/
def Obligations.ClassifyBucketsAreBitTests : Prop :=
  ∀ x : Word,
    (classify x = some .one ↔ x.toNat ≤ 63) ∧
    (classify x = some .two ↔ 64 ≤ x.toNat ∧ x.toNat ≤ 16383) ∧
    (classify x = some .four ↔ 16384 ≤ x.toNat ∧ x.toNat ≤ 1073741823) ∧
    (classify x = some .eight ↔ 1073741824 ≤ x.toNat ∧ x.toNat ≤ 4611686018427387903) ∧
    (classify x = none ↔ 4611686018427387904 ≤ x.toNat) ∧
    classify x =
      (if x.extractLsb' 6 58 = 0 then some .one
      else if x.extractLsb' 14 50 = 0 then some .two
      else if x.extractLsb' 30 34 = 0 then some .four
      else if x.extractLsb' 62 2 = 0 then some .eight
      else none)

/-- 42_classifier.md R131: CLS reports the length, or 0 for none, and always with `OK`. -/
def Obligations.ClsReportsTheLengthOrZero : Prop :=
  ∀ s : State,
    (s.opa.toNat ≤ 63 → exec .cls s = .next (s.withResults 0 0 1 0 0 0)) ∧
    (64 ≤ s.opa.toNat → s.opa.toNat ≤ 16383 → exec .cls s = .next (s.withResults 0 0 2 0 0 0)) ∧
    (16384 ≤ s.opa.toNat → s.opa.toNat ≤ 1073741823 → exec .cls s = .next (s.withResults 0 0 4 0 0 0)) ∧
    (1073741824 ≤ s.opa.toNat → s.opa.toNat ≤ 2 ^ 62 - 1 → exec .cls s = .next (s.withResults 0 0 8 0 0 0)) ∧
    (2 ^ 62 - 1 < s.opa.toNat → exec .cls s = .next (s.withResults 0 0 0 0 0 0))

/-- 42_classifier.md R132: classification is monotone, gives a class the value fits and no smaller one, and none exactly above
`VMAX`. -/
def Obligations.ClassifyIsMonotoneAndMinimal : Prop :=
  (∀ (x y : Word) (d : LenClass), x.toNat ≤ y.toNat → classify y = some d →
      ∃ c, classify x = some c ∧ c.octets ≤ d.octets) ∧
    (∀ (x : Word) (c : LenClass), classify x = some c →
      x.toNat < 2 ^ (8 * c.octets - 2) ∧ (1 < c.octets → 2 ^ (8 * (c.octets / 2) - 2) ≤ x.toNat)) ∧
    ∀ x : Word, classify x = none ↔ 2 ^ 62 - 1 < x.toNat

/-! ### Decoder. `L` is `1 << b0[7:6]`, the length that the top two bits of `IN_WIN` give. -/

/-- 43_decoder.md R141: on an empty stream DEC reports ABSENT and consumes nothing. -/
def Obligations.DecOnAnEmptyStream : Prop :=
  ∀ s : State, s.inRem = 0 → exec .dec s = .next (s.withResults 1 0 0 0 0 0)

/-- 43_decoder.md R142: on a truncated stream DEC reports ABSENT with the tag byte consumed, so that the host that follows the
transfer protocol moves its cursor one byte on. That `in.advance` leaves the value last read as it was and is one step is the
model's choice (assumption logs 6 and 14). -/
def Obligations.DecOnATruncatedStream : Prop :=
  ∀ s : State, 1 ≤ s.inRem.toNat → s.inRem.toNat < 1 <<< (s.inWin.toNat / 2 ^ 62) →
    exec .dec s = .next (s.withResults 1 0 0 1 0 0) ∧
      (s.host.input.cursor + 1 ≤ s.host.input.bytes.length →
        inAdvance (s.withResults 1 0 0 1 0 0) =
          .next ((s.withResults 1 0 0 1 0 0).withInput { s.host.input with cursor := s.host.input.cursor + 1 }))

/-- 43_decoder.md R143: on success `RES` is the big-endian number of `b0[5:0]` and the later octets, which is the word of the
first `L` window bytes without its tag. -/
def Obligations.DecReconstructsTheValue : Prop :=
  ∀ (s : State) (L : Nat), L = 1 <<< (s.inWin.toNat / 2 ^ 62) → L ≤ s.inRem.toNat →
    exec .dec s =
        .next (s.withResults 0 (BitVec.ofNat 64 (s.inWin.toNat / 2 ^ (64 - 8 * L) % 2 ^ (8 * L - 2)))
          (BitVec.ofNat 64 L) (BitVec.ofNat 64 L) 0 0) ∧
      s.inWin.toNat / 2 ^ (64 - 8 * L) % 2 ^ (8 * L - 2) =
        (List.range (L - 1)).foldl (fun v i => v * 256 + (winByte s.inWin (i + 1)).toNat)
          ((winByte s.inWin 0).toNat % 64) ∧
      (L = 8 → BitVec.ofNat 64 (s.inWin.toNat / 2 ^ (64 - 8 * L) % 2 ^ (8 * L - 2)) = s.inWin &&& 0x3FFFFFFFFFFFFFFF)

/-- 43_decoder.md R144: `IN_USED` is `L` on success, 1 on truncation and 0 on an empty stream, and never more than `IN_REM`. -/
def Obligations.DecConsumesWhatItNeeds : Prop :=
  ∀ (s : State) (L : Nat), L = 1 <<< (s.inWin.toNat / 2 ^ 62) →
    ∃ t, exec .dec s = .next t ∧ t.inUsed.toNat ≤ s.inRem.toNat ∧
      (s.inRem.toNat = 0 → t.inUsed.toNat = 0) ∧
      (1 ≤ s.inRem.toNat → s.inRem.toNat < L → t.inUsed.toNat = 1) ∧
      (L ≤ s.inRem.toNat → t.inUsed.toNat = L)

/-- 43_decoder.md R146: all results of DEC depend only on `IN_REM` and on the bytes it reads: none of an empty stream, byte 0 of
a truncated one, and the first `L` otherwise. The two states may differ in everything else: the other input registers, the
earlier results and the host. -/
def Obligations.DecDependsOnlyOnTheBytesItReads : Prop :=
  ∀ s s' : State, s'.inRem = s.inRem →
    (1 ≤ s.inRem.toNat → winByte s'.inWin 0 = winByte s.inWin 0) →
    (1 <<< (s.inWin.toNat / 2 ^ 62) ≤ s.inRem.toNat →
      ∀ k < 1 <<< (s.inWin.toNat / 2 ^ 62), winByte s'.inWin k = winByte s.inWin k) →
    ∃ t t', exec .dec s = .next t ∧ exec .dec s' = .next t' ∧
      ∀ r, r.hostAccess = .readOnly → t'.getReg r = t.getReg r

/-- 30_encoding.md R73: no first octet is illegal. DEC fails exactly when the stream is shorter than the tag implies, so every
window decodes once `IN_REM` reaches `L`. -/
def Obligations.TruncationIsTheOnlyDecodeFailure : Prop :=
  ∀ s : State, ∃ t, exec .dec s = .next t ∧
    (1 <<< (s.inWin.toNat / 2 ^ 62) ≤ s.inRem.toNat → t.status = 0) ∧
    (s.inRem.toNat < 1 <<< (s.inWin.toNat / 2 ^ 62) → t.status = 1)

/-- 30_encoding.md R75: a decoded value is at most `2^(8L−2) − 1`, hence at most `VMAX`. -/
def Obligations.DecodedValuesAreValidated : Prop :=
  ∀ s : State, 1 <<< (s.inWin.toNat / 2 ^ 62) ≤ s.inRem.toNat →
    ∃ t, exec .dec s = .next t ∧ t.status = 0 ∧
      t.res.toNat ≤ 2 ^ (8 * t.len.toNat - 2) - 1 ∧ 2 ^ (8 * t.len.toNat - 2) - 1 ≤ 2 ^ 62 - 1

/-- 30_encoding.md R74: any value that fits a class decodes from that class's octets, minimal or not; the encoder produces the
minimal class only. -/
def Obligations.NonMinimalEncodingsDecode : Prop :=
  (∀ (s : State) (c : LenClass) (x : Nat), x < 2 ^ (8 * c.octets - 2) → c.octets ≤ s.inRem.toNat →
      (∀ k < c.octets,
        (winByte s.inWin k).toNat =
          (c.tag.toNat * 2 ^ (8 * c.octets - 2) + x) / 2 ^ (8 * (c.octets - 1 - k)) % 256) →
      exec .dec s = .next (s.withResults 0 (BitVec.ofNat 64 x) (BitVec.ofNat 64 c.octets) (BitVec.ofNat 64 c.octets) 0 0)) ∧
    (∀ s : State, ∃ t, exec .enc s = .next t ∧
      (t.status = 0 → ∃ c, classify s.opa = some c ∧ t.outUsed.toNat = c.octets)) ∧
    ∀ s : State, s.inRem = 2 → s.inWin = 0x4025000000000000 → exec .dec s = .next (s.withResults 0 37 2 2 0 0)

/-! ### Encoder -/

/-- 44_encoder.md R161, R163: a value of `2^62` or more is OVERSIZED for every `OUT_CAP`, 0 included. -/
def Obligations.EncOversizedForEveryCapacity : Prop :=
  ∀ (s : State) (cap : Word), 2 ^ 62 ≤ s.opa.toNat →
    exec .enc { s with outCap := cap } = .next ({ s with outCap := cap }.withResults 2 0 0 0 0 0)

/-- 44_encoder.md R162: a value that fits but finds less capacity than its minimal length gives NOSPACE and no byte at all, and
NOSPACE depends on nothing else. -/
def Obligations.EncWithoutSpaceWritesNothing : Prop :=
  ∀ (s : State) (c : LenClass), classify s.opa = some c →
    (s.outCap.toNat < c.octets → exec .enc s = .next (s.withResults 3 0 0 0 0 0)) ∧
    (c.octets ≤ s.outCap.toNat → ∃ t, exec .enc s = .next t ∧ t.status ≠ 3)

/-- 44_encoder.md R160, R167: OVERSIZED, else NOSPACE, else the bytes of the value's range, as the number the window holds. -/
def Obligations.EncWritesTheTaggedWord : Prop :=
  ∀ s : State,
    (2 ^ 62 ≤ s.opa.toNat → exec .enc s = .next (s.withResults 2 0 0 0 0 0)) ∧
    (∀ c, classify s.opa = some c → s.outCap.toNat < c.octets → exec .enc s = .next (s.withResults 3 0 0 0 0 0)) ∧
    (s.opa.toNat ≤ 63 → 1 ≤ s.outCap.toNat →
      exec .enc s = .next (s.withResults 0 0 1 0 1 (BitVec.ofNat 64 (s.opa.toNat * 2 ^ 56)))) ∧
    (64 ≤ s.opa.toNat → s.opa.toNat ≤ 16383 → 2 ≤ s.outCap.toNat →
      exec .enc s = .next (s.withResults 0 0 2 0 2 (BitVec.ofNat 64 ((0b01 * 2 ^ 14 + s.opa.toNat) * 2 ^ 48)))) ∧
    (16384 ≤ s.opa.toNat → s.opa.toNat ≤ 1073741823 → 4 ≤ s.outCap.toNat →
      exec .enc s = .next (s.withResults 0 0 4 0 4 (BitVec.ofNat 64 ((0b10 * 2 ^ 30 + s.opa.toNat) * 2 ^ 32)))) ∧
    (1073741824 ≤ s.opa.toNat → s.opa.toNat ≤ 2 ^ 62 - 1 → 8 ≤ s.outCap.toNat →
      exec .enc s = .next (s.withResults 0 0 8 0 8 (BitVec.ofNat 64 (0b11 * 2 ^ 62 + s.opa.toNat))))

/-- 30_encoding.md R70 (and 20_memory.md R42, R44, R45): the tagged word of a value in a class, its `L` octets most significant
first, the first one the tag and the value's top six usable bits; and ENC writes exactly those, with 0 in every later byte. -/
def Obligations.EncOctetsAreBigEndian : Prop :=
  (∀ (c : LenClass) (x : Nat), x < 2 ^ (8 * c.octets - 2) →
      c.octets = 2 ^ c.tag.toNat ∧
      taggedWord c x = (c.tag.toNat <<< (8 * c.octets - 2)) ||| x ∧
      (wireOctets c x).length = c.octets ∧
      (∀ k < c.octets, ∃ b, (wireOctets c x)[k]? = some b ∧ b.toNat = taggedWord c x / 2 ^ (8 * (c.octets - 1 - k)) % 256) ∧
      ∃ b, (wireOctets c x)[0]? = some b ∧ b.toNat = c.tag.toNat * 64 + x / 2 ^ (8 * c.octets - 8)) ∧
  ∀ (s : State) (c : LenClass), classify s.opa = some c → c.octets ≤ s.outCap.toNat →
    ∃ t, exec .enc s = .next t ∧ t.status = 0 ∧ t.outUsed.toNat = c.octets ∧ t.len.toNat = c.octets ∧
      (∀ k < c.octets,
        (winByte t.outWin k).toNat =
          (c.tag.toNat * 2 ^ (8 * c.octets - 2) + s.opa.toNat) / 2 ^ (8 * (c.octets - 1 - k)) % 256) ∧
      ∀ k < 8, c.octets ≤ k → winByte t.outWin k = 0

/-- 44_encoder.md R166: a successful ENC produces exactly `classify(x)` bytes, and its results are a function of `x` alone: two
states with the same `OPA`, whose capacities both pass the check, may differ in everything else. -/
def Obligations.EncOutputDependsOnTheValueAlone : Prop :=
  ∀ (s s' : State) (c : LenClass), classify s.opa = some c → s'.opa = s.opa →
    c.octets ≤ s.outCap.toNat → c.octets ≤ s'.outCap.toNat →
    ∃ t t', exec .enc s = .next t ∧ exec .enc s' = .next t' ∧ t.status = 0 ∧ t.outUsed.toNat = c.octets ∧
      ∀ r, r.hostAccess = .readOnly → t'.getReg r = t.getReg r

/-- 44_encoder.md R164: a failed ENC produces nothing, and the host that follows the protocol appends nothing and leaves its
sink as it was. That `out.append` leaves the value last read as it was and is one step is the model's choice (assumption logs 6
and 14). -/
def Obligations.FailedEncLeavesTheSink : Prop :=
  ∀ s : State, ∃ t, exec .enc s = .next t ∧
    (t.status ≠ 0 → t.outUsed = 0 ∧ t.outWin = 0 ∧ t.host = s.host ∧ outAppend t = .next t)

/-- 44_encoder.md R165: the tag's two bits are zero in a value of the class, so the OR of the tag loses no value bit. -/
def Obligations.TagLosesNoValueBit : Prop :=
  ∀ (x : Word) (c : LenClass), classify x = some c →
    x.getLsbD (8 * c.octets - 1) = false ∧ x.getLsbD (8 * c.octets - 2) = false ∧
      taggedWord c x.toNat = c.tag.toNat * 2 ^ (8 * c.octets - 2) + x.toNat ∧
      taggedWord c x.toNat % 2 ^ (8 * c.octets - 2) = x.toNat

/-- 43_decoder.md R147: what ENC produces, DEC reads back, with any bytes following in the stream. -/
def Obligations.DecodeInvertsEncode : Prop :=
  ∀ (s : State) (c : LenClass), classify s.opa = some c → c.octets ≤ s.outCap.toNat →
    ∃ t, exec .enc s = .next t ∧ t.status = 0 ∧ t.len.toNat = c.octets ∧ t.outUsed = t.len ∧
      ∀ u : State, c.octets ≤ u.inRem.toNat → (∀ k < c.octets, winByte u.inWin k = winByte t.outWin k) →
        exec .dec u = .next (u.withResults 0 s.opa t.len t.len 0 0)

/-! ### All commands -/

/-- 60_exceptions.md R182: every command writes every result register, and one that fails writes them 0 but for the tag byte
that a truncated DEC consumes. -/
def Obligations.FailedCommandsHaveZeroResults : Prop :=
  (∀ (s : State) (code : StatusCode) (r : Results),
      finish code r s = s.withResults (code.bits.setWidth 64) r.res r.len r.inUsed r.outUsed r.outWin) ∧
    ({} : Results) = { res := 0, len := 0, inUsed := 0, outUsed := 0, outWin := 0 } ∧
    ∀ (i : Instr) (s : State), ∃ code r, exec i s = .next (finish code r s) ∧
      (code ≠ .ok → r.res = 0 ∧ r.len = 0 ∧ r.outUsed = 0 ∧ r.outWin = 0 ∧
        (r.inUsed = 0 ∨
          r.inUsed = 1 ∧ i = .dec ∧ 1 ≤ s.inRem.toNat ∧ s.inRem.toNat < 1 <<< (s.inWin.toNat / 2 ^ 62)))

/-- 60_exceptions.md R180, R181: the numbers of the codes, 7 being the number of none; the codes each command can report, each of
which it does report somewhere, `OK` among them; and the one code of an illegal word. -/
def Obligations.CommandsReportOnlyTheirCodes : Prop :=
  [.ok, .absent, .oversized, .noSpace, .range, .lenOvf, .illegal].map StatusCode.word = [0, 1, 2, 3, 4, 5, 6] ∧
    (∀ c : StatusCode, statusCode c.word = some c) ∧ statusCode 7 = none ∧
    (∀ (i : Instr) (s : State), ∃ code r, exec i s = .next (finish code r s) ∧ (code = .ok ∨ code ∈ failureCodes i)) ∧
    (∀ (i : Instr) (code : StatusCode), code = .ok ∨ code ∈ failureCodes i →
      ∃ s r, exec i s = .next (finish code r s)) ∧
    ∀ (word : Word) (e : IllegalWord) (s : State), decode word = .error e →
      ∃ r, issueCommand word s = .next (finish .illegal r { s with cmd := word })

/-- The frame of every command (41_value.md R108, 60_exceptions.md R183): it completes, and changes no input register and
nothing of the host, so no byte of the host's buffers and no line of its program. -/
def Obligations.CommandsChangeOnlyResultRegisters : Prop :=
  ∀ (i : Instr) (s : State), ∃ t, exec i s = .next t ∧
    t.cmd = s.cmd ∧ t.opa = s.opa ∧ t.opb = s.opb ∧ t.inRem = s.inRem ∧ t.inWin = s.inWin ∧ t.outCap = s.outCap ∧
      t.host = s.host

/-- 30_encoding.md R62: a command's results depend only on the registers it reads, and it writes 0 to each result register the
table does not list for it. -/
def Obligations.CommandsReadOnlyTheirOperands : Prop :=
  ∀ (i : Instr) (s s' : State), sameOperands i s s' →
    ∃ t t', exec i s = .next t ∧ exec i s' = .next t' ∧
      (∀ r, r.hostAccess = .readOnly → t.getReg r = t'.getReg r) ∧
      ∀ r, r.hostAccess = .readOnly → r ≠ .status → r ∉ meaningfulResults i → t.getReg r = 0

/-- 60_exceptions.md R184: a command runs the same whatever the last outcome was. -/
def Obligations.NoCommandDependsOnAnEarlierOutcome : Prop :=
  ∀ (word : Word) (s : State) (status res len inUsed outUsed outWin : Word),
    issueCommand word (s.withResults status res len inUsed outUsed outWin) = issueCommand word s

/-- 60_exceptions.md R186: the priorities within one command. -/
def Obligations.ChecksHaveTheirPriority : Prop :=
  (∀ (word : Word) (e : IllegalWord) (s : State), decode word = .error e →
      issueCommand word s = .next ({ s with cmd := word }.withResults 6 0 0 0 0 0)) ∧
    (∀ s : State, s.inRem = 0 → exec .dec s = .next (s.withResults 1 0 0 0 0 0)) ∧
    (∀ s : State, s.inRem ≠ 0 → s.inRem.toNat < 1 <<< (s.inWin.toNat / 2 ^ 62) →
      exec .dec s = .next (s.withResults 1 0 0 1 0 0)) ∧
    (∀ s : State, classify s.opa = none → exec .enc s = .next (s.withResults 2 0 0 0 0 0)) ∧
    (∀ s : State, 2 ^ 62 - 1 < s.opa.toNat → exec .addlen s = .next (s.withResults 4 0 0 0 0 0)) ∧
    ∀ s : State, 2 ^ 62 - 1 < s.opa.toNat ∨ 2 ^ 62 - 1 < s.opb.toNat → exec .add s = .next (s.withResults 4 0 0 0 0 0)

/-- 70_reset_and_hazards.md R203: an operand carries over, so the same command issued again gives the same results. -/
def Obligations.StaleOperandsRunTheSameCommandAgain : Prop :=
  ∀ (i : Instr) (s : State), ∃ t, exec i s = .next t ∧ exec i t = .next t

/-! ### The register window -/

/-- 10_state.md R20: the twelve offsets, the host's direction on each, and the reset value 0. -/
def Obligations.RegisterMapIsTheTables : Prop :=
  (∀ (off : BitVec 8) (r : Reg), Reg.ofOffset off = some r ↔ off = r.offset) ∧
    [Reg.cmd, .opa, .opb, .inRem, .inWin, .outCap].map (fun r => (r.offset.toNat, r.hostAccess)) =
      [(0x00, .readWrite), (0x08, .readWrite), (0x10, .readWrite), (0x18, .readWrite), (0x20, .readWrite), (0x28, .readWrite)] ∧
    [Reg.status, .res, .len, .inUsed, .outUsed, .outWin].map (fun r => (r.offset.toNat, r.hostAccess)) =
      [(0x40, .readOnly), (0x48, .readOnly), (0x50, .readOnly), (0x58, .readOnly), (0x60, .readOnly), (0x68, .readOnly)] ∧
    (∀ r, State.reset.getReg r = 0) ∧
    (∀ (r : Reg) (v : Word) (s : State), r.hostAccess = .readOnly → hostWrite r.offset v s = .next s) ∧
    ∀ off : BitVec 8, off = 0x30 ∨ off = 0x38 ∨ 0x70 ≤ off.toNat → Reg.ofOffset off = none

/-- 10_state.md R26: a host write sets an input register and no other, a read returns it, no command writes one, and over a whole
step one changes only at a host line that writes it, or at reset. -/
def Obligations.InputRegistersHoldWhatTheHostWrote : Prop :=
  (∀ (r : Reg) (v : Word) (s : State), r.hostAccess = .readWrite →
      ∃ t, hostWrite r.offset v s = .next t ∧ t.readOffset r.offset = v ∧
        ∀ q, q.hostAccess = .readWrite → q ≠ r → t.getReg q = s.getReg q) ∧
    (∀ (i : Instr) (s : State), ∃ t, exec i s = .next t ∧ ∀ q, q.hostAccess = .readWrite → t.getReg q = s.getReg q) ∧
    ∀ (s t : State) (r : Reg), r.hostAccess = .readWrite → step s = .next t → t.getReg r ≠ s.getReg r →
      ∃ line, fetchLine s = some line ∧ line.mayWriteInput r = true

/-- 10_state.md R27: a result register changes only when a command runs or at reset, a host write to it is ignored, and after
any command the results are in their ranges. -/
def Obligations.ResultRegistersChangeOnlyByCommandsAndReset : Prop :=
  (∀ (s t : State) (r : Reg), r.hostAccess = .readOnly → step s = .next t → t.getReg r ≠ s.getReg r →
      ∃ line, fetchLine s = some line ∧ line.mayChangeResults = true) ∧
    (∀ (r : Reg) (v : Word) (s : State), r.hostAccess = .readOnly → hostWrite r.offset v s = .next s) ∧
    ∀ (word : Word) (s : State), ∃ t, issueCommand word s = .next t ∧
      (t.len.toNat ∈ [0, 1, 2, 4, 8]) ∧ (t.inUsed.toNat ∈ [0, 1, 2, 4, 8]) ∧ (t.outUsed.toNat ∈ [0, 1, 2, 4, 8]) ∧
      ∀ k < 8, t.outUsed.toNat ≤ k → winByte t.outWin k = 0

/-- 10_state.md R28: an unmapped offset reads 0 and ignores writes; an access that is narrow or not aligned to 8 is refused, and
every other access is not. -/
def Obligations.OnlyWholeAlignedSlotsAreAccessed : Prop :=
  ∀ (off : BitVec 8) (v : Word) (s : State),
    (Reg.ofOffset off = none →
      hostWrite off v s = .next s ∧ hostRead off s = .next { s with host := { s.host with lastRead := some 0 } }) ∧
    (∀ sz, sz ≠ .bits64 → (∃ r, readAt sz off s = .refused r) ∧ ∃ r, writeAt sz off v s = .refused r) ∧
    (off.toNat % 8 ≠ 0 → (∃ r, readAt .bits64 off s = .refused r) ∧ ∃ r, writeAt .bits64 off v s = .refused r) ∧
    (off.toNat % 8 = 0 → readAt .bits64 off s = hostRead off s ∧ writeAt .bits64 off v s = hostWrite off v s)

/-- 20_memory.md R52: a read changes no register and may be repeated; a write to `CMD` issues a command even when it writes the
value `CMD` already holds; a write to another input register only stores the value. -/
def Obligations.ReadsHaveNoSideEffect : Prop :=
  (∀ (off : BitVec 8) (s : State), ∃ t, hostRead off s = .next t ∧ t.host.lastRead = some (s.readOffset off) ∧
      (∀ r, t.getReg r = s.getReg r) ∧ hostRead off t = .next t) ∧
    (∀ (s : State) (i : Instr), decode s.cmd = .ok i → hostWrite Reg.cmd.offset s.cmd s = exec i s) ∧
    ∀ (r : Reg) (v : Word) (s : State), r.hostAccess = .readWrite → r ≠ .cmd →
      hostWrite r.offset v s = .next (s.setReg r v)

/-- 10_state.md R25: a host write to `CMD` runs the word's command once, on the operands as they stand, and a read that comes
after it returns its results. -/
def Obligations.CmdWriteIssuesItsCommand : Prop :=
  ∀ (word : Word) (i : Instr) (s : State), decode word = .ok i →
    hostWrite Reg.cmd.offset word s = exec i { s with cmd := word } ∧
      ∃ t, exec i { s with cmd := word } = .next t ∧
        ∀ r, hostRead r.offset t = .next { t with host := { t.host with lastRead := some (t.getReg r) } }

/-- 20_memory.md R43: `CORE_BASE` places the window; its 256 addresses are its offsets, and no other address reaches CORE. -/
def Obligations.WindowAddressesAreItsOffsets : Prop :=
  (∀ (sz : AccessSize) (off : BitVec 8) (v : Word) (s : State),
      busRead sz (Config.coreBase + off.toNat) s = readAt sz off s ∧
        busWrite sz (Config.coreBase + off.toNat) v s = writeAt sz off v s) ∧
    ∀ (sz : AccessSize) (addr : Nat) (v : Word) (s : State), addr < Config.coreBase ∨ Config.coreBase + 256 ≤ addr →
      busRead sz addr s = .fault .outsideWindow ∧ busWrite sz addr v s = .fault .outsideWindow

/-! ### Windows and streams -/

/-- 20_memory.md R41, R42: `IN_BYTE(i)` and `OUT_BYTE(i)` are bits `63−8i : 56−8i` of their windows, and every command writes 0 to
the output bytes at indices from `OUT_USED` on. -/
def Obligations.WindowPacking : Prop :=
  (∀ (s : State) (k : Nat), k < 8 →
      (inByte s k).toNat = s.inWin.toNat / 2 ^ (56 - 8 * k) % 256 ∧
        (outByte s k).toNat = s.outWin.toNat / 2 ^ (56 - 8 * k) % 256) ∧
    ∀ (i : Instr) (s : State), ∃ t, exec i s = .next t ∧ (∀ k < 8, t.outUsed.toNat ≤ k → outByte t k = 0) ∧
      (t.outUsed = 0 → t.outWin = 0)

/-- 20_memory.md R46: the host's part of a transfer. `in.present` gives the count and the next bytes, `in.advance` moves the
cursor by `IN_USED`, `out.present` gives the capacity, and `out.append` appends the produced bytes and reduces it. The last holds
of result registers in their ranges (R27), which every step keeps (`StepsKeepTheStateLegal`). That `in.advance` and `out.append` leave the value last read as it was, and
that each macro is one step, is the model's choice (assumption logs 6 and 14). -/
def Obligations.TransferProtocol : Prop :=
  (∀ (s : State) (pad : Word), s.host.input.bytes.length - s.host.input.cursor ≤ 2 ^ 64 - 1 →
      ∃ win : Word,
        inPresent pad s =
          .next { s with
            inRem := BitVec.ofNat 64 (s.host.input.bytes.length - s.host.input.cursor), inWin := win } ∧
        ∀ k, k < 8 → k < s.host.input.bytes.length - s.host.input.cursor →
          some (winByte win k) = s.host.input.bytes[s.host.input.cursor + k]?) ∧
    (∀ s : State, s.host.input.cursor + s.inUsed.toNat ≤ s.host.input.bytes.length →
      inAdvance s =
        .next (s.withInput { s.host.input with cursor := s.host.input.cursor + s.inUsed.toNat })) ∧
    (∀ s : State, s.host.sink.capacity ≤ 2 ^ 64 - 1 →
      outPresent s = .next { s with outCap := BitVec.ofNat 64 s.host.sink.capacity }) ∧
    ∀ s : State, s.resultsLegal → s.outUsed.toNat ≤ s.host.sink.capacity →
      ∃ bs : List Byte, bs.length = s.outUsed.toNat ∧ (∀ k, k < bs.length → bs[k]? = some (winByte s.outWin k)) ∧
        outAppend s =
          .next (s.withSink
            { written := s.host.sink.written ++ bs, capacity := s.host.sink.capacity - s.outUsed.toNat })

/-- 20_memory.md R47: the bytes the host need not write do not matter: whatever it presents there, DEC gives the same results. -/
def Obligations.BytesBeyondTheStreamDoNotMatter : Prop :=
  ∀ (s : State) (p q : Word), s.host.input.bytes.length - s.host.input.cursor ≤ 2 ^ 64 - 1 →
    ∃ a b t, inPresent p s = .next a ∧ inPresent q s = .next b ∧
      exec .dec a = .next t ∧ exec .dec b = .next { t with inWin := b.inWin }

/-! ### Reset -/

/-- Reset sets every register to 0, so `CODE = OK`, whatever the state was, and runs no command (70_reset_and_hazards.md R200,
R201). That reset is a host line is the model's reading (assumption log 8, DEDUCED), and that the host is unchanged but for going
to its next line is the model's choice (assumption log 2). -/
def Obligations.ResetClearsEveryRegister : Prop :=
  (∀ s : State, fetchLine s = some .reset →
      ∃ t, step s = .next t ∧ (∀ r, t.getReg r = 0) ∧ statusCode t.status = some .ok ∧
        t.host = { s.host with line := s.host.line + 1 }) ∧
    ∀ s s' t t' : State, fetchLine s = some .reset → fetchLine s' = some .reset → step s = .next t → step s' = .next t' →
      ∀ r, t.getReg r = t'.getReg r

/-- 10_state.md R32: every register is 0 after reset, `STATUS` is `OK`, and a command issued then runs on those operands (the two
examples of 70_reset_and_hazards.md R202). -/
def Obligations.FirstCommandsAfterReset : Prop :=
  (∀ r, State.reset.getReg r = 0) ∧ statusCode State.reset.status = some .ok ∧
    exec .dec State.reset = .next (State.reset.withResults 1 0 0 0 0 0) ∧
    exec .enc State.reset = .next (State.reset.withResults 3 0 0 0 0 0)

/-! ### Steps -/

/-- A step whose host line writes a legal word to `CMD`, in any of the ways `writesToCmd` names, is the word's command, at the
state with the word in `CMD` and the host at its next line. So is the first step after `withFetchWord`; that it stands for
loading a program, and puts its one line where the host performs its next, is the model's choice (assumption log 1, DEDUCED). -/
def Obligations.StepRunsTheDecodedCommand : Prop :=
  (∀ (s : State) (word : Word) (i : Instr), writesToCmd word s → decode word = .ok i →
      step s = exec i { s with cmd := word, host := { s.host with line := s.host.line + 1 } }) ∧
    ∀ (s : State) (n w : Nat) (i : Instr), decodeTableWord n w = some i →
      step (s.withFetchWord n w) =
        exec i { s with
          cmd := BitVec.ofNat 64 (w % 2 ^ n),
          host := { insertLine (.wr .cmd (.lit (BitVec.ofNat 64 (w % 2 ^ n)))) s.host with
            line := min s.host.line s.host.program.length + 1 } }

/-- A step whose host line writes an illegal word to `CMD`, in any of the ways `writesToCmd` names, reports ILLEGAL with zero
results, keeps the word in `CMD`, and goes on. (A command line never does: its word is legal.) -/
def Obligations.StepReportsAnIllegalWord : Prop :=
  ∀ (s : State) (word : Word) (e : IllegalWord), writesToCmd word s → decode word = .error e →
    step s =
      .next ({ s with cmd := word, host := { s.host with line := s.host.line + 1 } }.withResults 6 0 0 0 0 0)

/-- 60_exceptions.md R192: between commands CORE holds its registers and does nothing. A host with no line left, or at `halt`,
leaves the whole state as it is. -/
def Obligations.CoreIsIdleBetweenCommands : Prop :=
  ∀ s : State, fetchLine s = none ∨ fetchLine s = some .halt → step s = .next s

/-- Every state a step reaches from a legal one is legal: the result registers are in their ranges and zero after a failure, the
cursor is within its buffer, and the host's variables are listed once each (variables are the model's, assumption log 6). -/
def Obligations.StepsKeepTheStateLegal : Prop :=
  ∀ s t : State, s.legal → step s = .next t → t.legal

/-- The state after reset is legal. The registers' part rests on 10_state.md R32; the host's, that its cursor lies in its buffer
and that it has no variables, rests on what the model chose for the host at reset (assumption log 2, DESIGN CHOICE), which the
spec does not give. -/
def Obligations.ResetStateIsLegal : Prop :=
  State.reset.legal

/-! ### Assembler -/

/-- 30_encoding.md R67: the expansions of the pseudo-instructions. -/
def Obligations.PseudoInstructionsExpand : Prop :=
  parseMnemonic "FROM.SZ" = some .fromU64 ∧ parseMnemonic "TO.U64" = some .toVal ∧ parseMnemonic "TO.SZ" = some .toVal ∧
    Pseudo.fromSz.expand = [.command .fromU64] ∧ Pseudo.toU64.expand = [.command .toVal] ∧
    Pseudo.toSz.expand = [.command .toVal] ∧
    (∀ v : HostValue,
      (Pseudo.fromValue .u8 v).expand = [.wr .opa v, .command .fromU8] ∧
      (Pseudo.fromValue .u16 v).expand = [.wr .opa v, .command .fromU16] ∧
      (Pseudo.fromValue .u32 v).expand = [.wr .opa v, .command .fromU32] ∧
      (Pseudo.fromValue .u64 v).expand = [.wr .opa v, .command .fromU64] ∧
      (Pseudo.sizeValue v).expand = [.wr .opa v, .command .size] ∧
      (Pseudo.toValue v).expand = [.wr .opa v, .command .toVal] ∧
      (Pseudo.clsValue v).expand = [.wr .opa v, .command .cls] ∧
      (Pseudo.encValue v).expand = [.wr .opa v, .command .enc] ∧
      (Pseudo.encS v).expand = [.wr .opa v, .outPresent, .command .enc, .outAppend]) ∧
    (∀ a b : HostValue,
      (Pseudo.lenadd a b).expand = [.wr .opa b, .wr .opb a, .command .addlen] ∧
      (Pseudo.addValues a b).expand = [.wr .opa a, .wr .opb b, .command .add] ∧
      (Pseudo.addlenValues a b).expand = [.wr .opa a, .wr .opb b, .command .addlen]) ∧
    ∀ pad : Word, (Pseudo.decS pad).expand = [.inPresent pad, .command .dec, .inAdvance]

/-- 30_encoding.md R66: assembling a mnemonic gives its command word. -/
def Obligations.MnemonicsAssemble : Prop :=
  ∀ i : Instr, assemble (mnemonic i) = some (encode i)
end

