-- ==== Sys2Proof/Laws/State.lean ====
section
/-! SUPPORT. One lemma per field per update of the state, each true by `rfl`, so that no later proof unfolds a record update. -/

namespace Sys2Proof.Machine

/-! ### `finish` -/

@[simp] theorem finish_cmd (code : StatusCode) (r : Results) (s : State) : (finish code r s).cmd = s.cmd := rfl
@[simp] theorem finish_opa (code : StatusCode) (r : Results) (s : State) : (finish code r s).opa = s.opa := rfl
@[simp] theorem finish_opb (code : StatusCode) (r : Results) (s : State) : (finish code r s).opb = s.opb := rfl
@[simp] theorem finish_inRem (code : StatusCode) (r : Results) (s : State) : (finish code r s).inRem = s.inRem := rfl
@[simp] theorem finish_inWin (code : StatusCode) (r : Results) (s : State) : (finish code r s).inWin = s.inWin := rfl
@[simp] theorem finish_outCap (code : StatusCode) (r : Results) (s : State) : (finish code r s).outCap = s.outCap := rfl
@[simp] theorem finish_status (code : StatusCode) (r : Results) (s : State) : (finish code r s).status = code.word := rfl
@[simp] theorem finish_res (code : StatusCode) (r : Results) (s : State) : (finish code r s).res = r.res := rfl
@[simp] theorem finish_len (code : StatusCode) (r : Results) (s : State) : (finish code r s).len = r.len := rfl
@[simp] theorem finish_inUsed (code : StatusCode) (r : Results) (s : State) : (finish code r s).inUsed = r.inUsed := rfl
@[simp] theorem finish_outUsed (code : StatusCode) (r : Results) (s : State) : (finish code r s).outUsed = r.outUsed := rfl
@[simp] theorem finish_outWin (code : StatusCode) (r : Results) (s : State) : (finish code r s).outWin = r.outWin := rfl
@[simp] theorem finish_host (code : StatusCode) (r : Results) (s : State) : (finish code r s).host = s.host := rfl

/-! ### `withResults` -/

@[simp] theorem withResults_cmd (s : State) (status res len inUsed outUsed outWin : Word) : (s.withResults status res len inUsed outUsed outWin).cmd = s.cmd := rfl
@[simp] theorem withResults_opa (s : State) (status res len inUsed outUsed outWin : Word) : (s.withResults status res len inUsed outUsed outWin).opa = s.opa := rfl
@[simp] theorem withResults_opb (s : State) (status res len inUsed outUsed outWin : Word) : (s.withResults status res len inUsed outUsed outWin).opb = s.opb := rfl
@[simp] theorem withResults_inRem (s : State) (status res len inUsed outUsed outWin : Word) : (s.withResults status res len inUsed outUsed outWin).inRem = s.inRem := rfl
@[simp] theorem withResults_inWin (s : State) (status res len inUsed outUsed outWin : Word) : (s.withResults status res len inUsed outUsed outWin).inWin = s.inWin := rfl
@[simp] theorem withResults_outCap (s : State) (status res len inUsed outUsed outWin : Word) : (s.withResults status res len inUsed outUsed outWin).outCap = s.outCap := rfl
@[simp] theorem withResults_status (s : State) (status res len inUsed outUsed outWin : Word) : (s.withResults status res len inUsed outUsed outWin).status = status := rfl
@[simp] theorem withResults_res (s : State) (status res len inUsed outUsed outWin : Word) : (s.withResults status res len inUsed outUsed outWin).res = res := rfl
@[simp] theorem withResults_len (s : State) (status res len inUsed outUsed outWin : Word) : (s.withResults status res len inUsed outUsed outWin).len = len := rfl
@[simp] theorem withResults_inUsed (s : State) (status res len inUsed outUsed outWin : Word) : (s.withResults status res len inUsed outUsed outWin).inUsed = inUsed := rfl
@[simp] theorem withResults_outUsed (s : State) (status res len inUsed outUsed outWin : Word) : (s.withResults status res len inUsed outUsed outWin).outUsed = outUsed := rfl
@[simp] theorem withResults_outWin (s : State) (status res len inUsed outUsed outWin : Word) : (s.withResults status res len inUsed outUsed outWin).outWin = outWin := rfl
@[simp] theorem withResults_host (s : State) (status res len inUsed outUsed outWin : Word) : (s.withResults status res len inUsed outUsed outWin).host = s.host := rfl

/-! ### `atLine` -/

@[simp] theorem atLine_cmd (s : State) (n : Nat) : (s.atLine n).cmd = s.cmd := rfl
@[simp] theorem atLine_opa (s : State) (n : Nat) : (s.atLine n).opa = s.opa := rfl
@[simp] theorem atLine_opb (s : State) (n : Nat) : (s.atLine n).opb = s.opb := rfl
@[simp] theorem atLine_inRem (s : State) (n : Nat) : (s.atLine n).inRem = s.inRem := rfl
@[simp] theorem atLine_inWin (s : State) (n : Nat) : (s.atLine n).inWin = s.inWin := rfl
@[simp] theorem atLine_outCap (s : State) (n : Nat) : (s.atLine n).outCap = s.outCap := rfl
@[simp] theorem atLine_status (s : State) (n : Nat) : (s.atLine n).status = s.status := rfl
@[simp] theorem atLine_res (s : State) (n : Nat) : (s.atLine n).res = s.res := rfl
@[simp] theorem atLine_len (s : State) (n : Nat) : (s.atLine n).len = s.len := rfl
@[simp] theorem atLine_inUsed (s : State) (n : Nat) : (s.atLine n).inUsed = s.inUsed := rfl
@[simp] theorem atLine_outUsed (s : State) (n : Nat) : (s.atLine n).outUsed = s.outUsed := rfl
@[simp] theorem atLine_outWin (s : State) (n : Nat) : (s.atLine n).outWin = s.outWin := rfl
@[simp] theorem atLine_host (s : State) (n : Nat) : (s.atLine n).host = { s.host with line := n } := rfl

/-! ### `nextLine` -/

@[simp] theorem nextLine_cmd (s : State) : (s.nextLine).cmd = s.cmd := rfl
@[simp] theorem nextLine_opa (s : State) : (s.nextLine).opa = s.opa := rfl
@[simp] theorem nextLine_opb (s : State) : (s.nextLine).opb = s.opb := rfl
@[simp] theorem nextLine_inRem (s : State) : (s.nextLine).inRem = s.inRem := rfl
@[simp] theorem nextLine_inWin (s : State) : (s.nextLine).inWin = s.inWin := rfl
@[simp] theorem nextLine_outCap (s : State) : (s.nextLine).outCap = s.outCap := rfl
@[simp] theorem nextLine_status (s : State) : (s.nextLine).status = s.status := rfl
@[simp] theorem nextLine_res (s : State) : (s.nextLine).res = s.res := rfl
@[simp] theorem nextLine_len (s : State) : (s.nextLine).len = s.len := rfl
@[simp] theorem nextLine_inUsed (s : State) : (s.nextLine).inUsed = s.inUsed := rfl
@[simp] theorem nextLine_outUsed (s : State) : (s.nextLine).outUsed = s.outUsed := rfl
@[simp] theorem nextLine_outWin (s : State) : (s.nextLine).outWin = s.outWin := rfl
@[simp] theorem nextLine_host (s : State) : (s.nextLine).host = { s.host with line := s.host.line + 1 } := rfl

/-! ### `withInput` -/

@[simp] theorem withInput_cmd (s : State) (i : InStream) : (s.withInput i).cmd = s.cmd := rfl
@[simp] theorem withInput_opa (s : State) (i : InStream) : (s.withInput i).opa = s.opa := rfl
@[simp] theorem withInput_opb (s : State) (i : InStream) : (s.withInput i).opb = s.opb := rfl
@[simp] theorem withInput_inRem (s : State) (i : InStream) : (s.withInput i).inRem = s.inRem := rfl
@[simp] theorem withInput_inWin (s : State) (i : InStream) : (s.withInput i).inWin = s.inWin := rfl
@[simp] theorem withInput_outCap (s : State) (i : InStream) : (s.withInput i).outCap = s.outCap := rfl
@[simp] theorem withInput_status (s : State) (i : InStream) : (s.withInput i).status = s.status := rfl
@[simp] theorem withInput_res (s : State) (i : InStream) : (s.withInput i).res = s.res := rfl
@[simp] theorem withInput_len (s : State) (i : InStream) : (s.withInput i).len = s.len := rfl
@[simp] theorem withInput_inUsed (s : State) (i : InStream) : (s.withInput i).inUsed = s.inUsed := rfl
@[simp] theorem withInput_outUsed (s : State) (i : InStream) : (s.withInput i).outUsed = s.outUsed := rfl
@[simp] theorem withInput_outWin (s : State) (i : InStream) : (s.withInput i).outWin = s.outWin := rfl
@[simp] theorem withInput_host (s : State) (i : InStream) : (s.withInput i).host = { s.host with input := i } := rfl

/-! ### `withSink` -/

@[simp] theorem withSink_cmd (s : State) (o : OutSink) : (s.withSink o).cmd = s.cmd := rfl
@[simp] theorem withSink_opa (s : State) (o : OutSink) : (s.withSink o).opa = s.opa := rfl
@[simp] theorem withSink_opb (s : State) (o : OutSink) : (s.withSink o).opb = s.opb := rfl
@[simp] theorem withSink_inRem (s : State) (o : OutSink) : (s.withSink o).inRem = s.inRem := rfl
@[simp] theorem withSink_inWin (s : State) (o : OutSink) : (s.withSink o).inWin = s.inWin := rfl
@[simp] theorem withSink_outCap (s : State) (o : OutSink) : (s.withSink o).outCap = s.outCap := rfl
@[simp] theorem withSink_status (s : State) (o : OutSink) : (s.withSink o).status = s.status := rfl
@[simp] theorem withSink_res (s : State) (o : OutSink) : (s.withSink o).res = s.res := rfl
@[simp] theorem withSink_len (s : State) (o : OutSink) : (s.withSink o).len = s.len := rfl
@[simp] theorem withSink_inUsed (s : State) (o : OutSink) : (s.withSink o).inUsed = s.inUsed := rfl
@[simp] theorem withSink_outUsed (s : State) (o : OutSink) : (s.withSink o).outUsed = s.outUsed := rfl
@[simp] theorem withSink_outWin (s : State) (o : OutSink) : (s.withSink o).outWin = s.outWin := rfl
@[simp] theorem withSink_host (s : State) (o : OutSink) : (s.withSink o).host = { s.host with sink := o } := rfl

/-! ### `assertReset` -/

@[simp] theorem assertReset_cmd (s : State) : (s.assertReset).cmd = 0 := rfl
@[simp] theorem assertReset_opa (s : State) : (s.assertReset).opa = 0 := rfl
@[simp] theorem assertReset_opb (s : State) : (s.assertReset).opb = 0 := rfl
@[simp] theorem assertReset_inRem (s : State) : (s.assertReset).inRem = 0 := rfl
@[simp] theorem assertReset_inWin (s : State) : (s.assertReset).inWin = 0 := rfl
@[simp] theorem assertReset_outCap (s : State) : (s.assertReset).outCap = 0 := rfl
@[simp] theorem assertReset_status (s : State) : (s.assertReset).status = 0 := rfl
@[simp] theorem assertReset_res (s : State) : (s.assertReset).res = 0 := rfl
@[simp] theorem assertReset_len (s : State) : (s.assertReset).len = 0 := rfl
@[simp] theorem assertReset_inUsed (s : State) : (s.assertReset).inUsed = 0 := rfl
@[simp] theorem assertReset_outUsed (s : State) : (s.assertReset).outUsed = 0 := rfl
@[simp] theorem assertReset_outWin (s : State) : (s.assertReset).outWin = 0 := rfl
@[simp] theorem assertReset_host (s : State) : (s.assertReset).host = s.host := rfl

/-! ### The register file -/

@[simp] theorem getReg_setReg_same (s : State) (r : Reg) (v : Word) : (s.setReg r v).getReg r = v := by
  cases r <;> rfl

theorem getReg_setReg_of_ne (s : State) {r q : Reg} (v : Word) (h : q ≠ r) : (s.setReg r v).getReg q = s.getReg q := by
  cases r <;> cases q <;> first | rfl | exact absurd rfl h

@[simp] theorem setReg_host (s : State) (r : Reg) (v : Word) : (s.setReg r v).host = s.host := by
  cases r <;> rfl

@[simp] theorem getReg_atLine (s : State) (n : Nat) (r : Reg) : (s.atLine n).getReg r = s.getReg r := by
  cases r <;> rfl

@[simp] theorem getReg_nextLine (s : State) (r : Reg) : s.nextLine.getReg r = s.getReg r := by
  cases r <;> rfl

@[simp] theorem getReg_withInput (s : State) (i : InStream) (r : Reg) : (s.withInput i).getReg r = s.getReg r := by
  cases r <;> rfl

@[simp] theorem getReg_withSink (s : State) (o : OutSink) (r : Reg) : (s.withSink o).getReg r = s.getReg r := by
  cases r <;> rfl

/-- A change of the host's own fields changes no register. -/
@[simp] theorem getReg_withHost (s : State) (h : HostAgent) (r : Reg) : ({ s with host := h } : State).getReg r = s.getReg r := by
  cases r <;> rfl

end Sys2Proof.Machine
end

