-- ==== Sys2Proof/Laws/Ops.lean ====
section
/-! SUPPORT. What each shared operation can do, said once: `finish`, the register window, the host's stream operations and the
lines that use them. -/

namespace Sys2Proof.Machine

/-! ### `finish` -/

/-- `finish` writes the six result registers and nothing else. -/
theorem finish_eq_withResults (code : StatusCode) (r : Results) (s : State) :
    finish code r s = s.withResults code.word r.res r.len r.inUsed r.outUsed r.outWin := rfl

/-- `finish` of a state forgets an earlier `finish`. -/
theorem finish_finish (c d : StatusCode) (r q : Results) (s : State) : finish c r (finish d q s) = finish c r s := rfl

/-- `finish` keeps every register the host writes. -/
theorem finish_keeps_input (code : StatusCode) (r : Results) (s : State) {q : Reg} (h : q.hostAccess = .readWrite) :
    (finish code r s).getReg q = s.getReg q := by
  cases q <;> first | rfl | cases h

/-- The check that FROM.U64, SIZE, TO and ADD end with, below the bound. -/
theorem finishInRange_of_le {n : Nat} (r : Results) (s : State) (h : n ≤ 2 ^ 62 - 1) :
    finishInRange n r s = .next (finish .ok r s) := by
  have : ¬Config.vmax < n := Nat.not_lt.mpr h
  simp [finishInRange, exceedsVmax, finished, this]

/-- The same check above the bound. -/
theorem finishInRange_of_lt {n : Nat} (r : Results) (s : State) (h : 2 ^ 62 - 1 < n) :
    finishInRange n r s = .next (finish .range {} s) := by
  have : Config.vmax < n := h
  simp [finishInRange, exceedsVmax, finished, this]

/-! ### The register window -/

/-- The register at a register's offset is that register. -/
@[simp] theorem ofOffset_offset (r : Reg) : Reg.ofOffset r.offset = some r := by
  cases r <;> rfl

/-- An offset that holds a register is that register's offset. -/
theorem offset_of_ofOffset {off : BitVec 8} {r : Reg} (h : Reg.ofOffset off = some r) : off = r.offset := by
  unfold Reg.ofOffset at h
  split at h <;> simp only [Option.some.injEq, reduceCtorEq] at h <;> subst h <;> apply BitVec.eq_of_toNat_eq <;> assumption

/-- A read at a register's offset returns the register. -/
@[simp] theorem readOffset_offset (s : State) (r : Reg) : s.readOffset r.offset = s.getReg r := by
  simp [State.readOffset]

/-- A write at the offset of an input register stores the value. -/
theorem storeOffset_readWrite (s : State) {r : Reg} (v : Word) (h : r.hostAccess = .readWrite) :
    s.storeOffset r.offset v = s.setReg r v := by
  simp [State.storeOffset, h]

/-- A write at the offset of a result register is ignored. -/
theorem storeOffset_readOnly (s : State) {r : Reg} (v : Word) (h : r.hostAccess = .readOnly) :
    s.storeOffset r.offset v = s := by
  simp [State.storeOffset, h]

/-- Only a 64-bit access whose offset is a multiple of 8 is not refused. -/
theorem accessRefusal_eq_none_iff (sz : AccessSize) (off : BitVec 8) :
    accessRefusal sz off = none ↔ sz = .bits64 ∧ off.toNat % 8 = 0 := by
  cases sz <;> simp [accessRefusal]

/-- An offset's address names the offset, wherever the platform puts the window. -/
@[simp] theorem offsetOfAddress_addressOf (off : BitVec 8) : offsetOfAddress (addressOf off) = some off := by
  have : off.toNat < 256 := off.isLt
  simp [offsetOfAddress, addressOf, Config.registerWindowBytes, this]

/-- An address outside the window names no offset. -/
theorem offsetOfAddress_eq_none {addr : Nat} (h : addr < Config.coreBase ∨ Config.coreBase + 256 ≤ addr) :
    offsetOfAddress addr = none := by
  have : ¬(Config.coreBase ≤ addr ∧ addr < Config.coreBase + Config.registerWindowBytes) := by
    simp only [Config.registerWindowBytes]; omega
  simp [offsetOfAddress, this]

/-! ### The host's streams -/

/-- A cursor move that completes leaves the cursor in its buffer and changes nothing else. -/
theorem inSeek_next {c : Nat} {s t : State} (h : inSeek c s = .next t) :
    c ≤ s.host.input.bytes.length ∧ t = s.withInput { s.host.input with cursor := c } := by
  unfold inSeek at h
  split at h
  · cases h
  · cases h; exact ⟨by omega, rfl⟩

/-- `in.present` that completes writes `IN_REM` and `IN_WIN` only. -/
theorem inPresent_next {pad : Word} {s t : State} (h : inPresent pad s = .next t) :
    s.host.input.remaining ≤ Config.nativeMax ∧
      t = { s with inRem := BitVec.ofNat 64 s.host.input.remaining, inWin := s.host.input.window pad } := by
  unfold inPresent at h
  dsimp only at h
  split at h
  · cases h
  · cases h; exact ⟨by omega, rfl⟩

/-- `out.present` that completes writes `OUT_CAP` only. -/
theorem outPresent_next {s t : State} (h : outPresent s = .next t) :
    s.host.sink.capacity ≤ Config.nativeMax ∧ t = { s with outCap := BitVec.ofNat 64 s.host.sink.capacity } := by
  unfold outPresent at h
  dsimp only at h
  split at h
  · cases h
  · cases h; exact ⟨by omega, rfl⟩

/-- `out.append` that completes changes the sink only. -/
theorem outAppend_next {s t : State} (h : outAppend s = .next t) :
    s.outUsed.toNat ≤ 8 ∧ s.outUsed.toNat ≤ s.host.sink.capacity ∧
      t = s.withSink
        { written := s.host.sink.written ++ producedBytes s, capacity := s.host.sink.capacity - s.outUsed.toNat } := by
  unfold outAppend at h
  dsimp only at h
  split at h
  · cases h
  · rename_i hw
    split at h
    · cases h
    · cases h; exact ⟨Nat.not_lt.mp hw, by omega, rfl⟩

/-! ### The host's variables -/

/-- A variable just set reads as it was set. -/
@[simp] theorem lookupVar_setVar_same (n : Nat) (v : Word) (vs : List (Nat × Word)) : lookupVar n (setVar n v vs) = some v := by
  induction vs with
  | nil => simp [setVar, lookupVar]
  | cons p rest ih =>
    obtain ⟨m, w⟩ := p
    unfold setVar
    split
    · simp [lookupVar]
    · split
      · simp [lookupVar]
      · rename_i h; simp [lookupVar, h, ih]

/-- The numbers of the variables after one is set. -/
theorem mem_setVar_keys {n m : Nat} {v : Word} {vs : List (Nat × Word)} (h : m ∈ (setVar n v vs).map Prod.fst) :
    m = n ∨ m ∈ vs.map Prod.fst := by
  induction vs with
  | nil => exact .inl (by simpa [setVar] using h)
  | cons p rest ih =>
    obtain ⟨k, w⟩ := p
    unfold setVar at h
    split at h
    · simpa using h
    · split at h
      · subst_vars; simp only [List.map_cons, List.mem_cons] at h ⊢; tauto
      · simp only [List.map_cons, List.mem_cons] at h ⊢
        rcases h with h | h
        · exact .inr (.inl h)
        · exact (ih h).imp_right .inr

/-- Setting a variable keeps the list in its canonical form. -/
theorem setVar_keeps_order (n : Nat) (v : Word) {vs : List (Nat × Word)} (h : (vs.map Prod.fst).Pairwise (· < ·)) :
    ((setVar n v vs).map Prod.fst).Pairwise (· < ·) := by
  induction vs with
  | nil => simp [setVar]
  | cons p rest ih =>
    obtain ⟨m, w⟩ := p
    simp only [List.map_cons, List.pairwise_cons] at h
    unfold setVar
    split
    · rename_i hlt
      simp only [List.map_cons, List.pairwise_cons, List.mem_cons, forall_eq_or_imp]
      exact ⟨⟨hlt, fun a ha => hlt.trans (h.1 a ha)⟩, h⟩
    · split
      · subst_vars; simpa [List.pairwise_cons] using h
      · rename_i hnlt hne
        simp only [List.map_cons, List.pairwise_cons]
        refine ⟨fun a ha => ?_, ih h.2⟩
        rcases mem_setVar_keys ha with rfl | ha
        · omega
        · exact h.1 a ha

end Sys2Proof.Machine
end

