-- ==== Sys2Proof/Laws/Wire.lean ====
section
/-! SUPPORT. The windows, the length classes and the classifier as numbers. -/

namespace Sys2Proof.Machine

/-! ### Length classes -/

/-- The tag of a class selects it. -/
@[simp] theorem ofTag_tag (c : LenClass) : LenClass.ofTag c.tag = c := by cases c <;> rfl

/-- The class a tag selects has that tag. -/
@[simp] theorem tag_ofTag (t : BitVec 2) : (LenClass.ofTag t).tag = t := by revert t; decide

/-- The length a tag selects is `1 << t` (30_encoding.md R72). -/
theorem octets_ofTag (t : BitVec 2) : (LenClass.ofTag t).octets = 1 <<< t.toNat := by revert t; decide

@[simp] theorem word_toNat (c : LenClass) : c.word.toNat = c.octets := by cases c <;> rfl

theorem octets_pos (c : LenClass) : 0 < c.octets := by cases c <;> decide

theorem octets_le_eight (c : LenClass) : c.octets ≤ 8 := by cases c <;> decide

/-! ### Windows -/

/-- A window byte as a number. -/
theorem winByte_toNat (win : Word) {k : Nat} (h : k < 8) : (winByte win k).toNat = win.toNat / 2 ^ (56 - 8 * k) % 256 := by
  have := h
  simp [winByte, BitVec.extractLsb'_toNat, Nat.shiftRight_eq_div_pow]

/-- The window that packs a list holds the list's bytes at their indices. -/
theorem winByte_packWindow (bs : List Byte) {k : Nat} (h : k < 8) : winByte (packWindow bs) k = bs.getD k 0 := by
  apply BitVec.eq_of_getLsbD_eq
  intro i hi
  simp only [winByte, packWindow, BitVec.getLsbD_extractLsb', hi, decide_true, Bool.true_and, BitVec.getLsbD_append]
  interval_cases k <;> simp <;> interval_cases i <;> simp

/-- Two windows with the same bytes are the same. -/
theorem winByte_ext {v w : Word} (h : ∀ k < 8, winByte v k = winByte w k) : v = w := by
  apply BitVec.eq_of_getLsbD_eq
  intro i hi
  have := congrArg (fun b => b.getLsbD (i % 8)) (h (7 - i / 8) (by omega))
  simp only [winByte, BitVec.getLsbD_extractLsb'] at this
  have e : 56 - 8 * (7 - i / 8) + i % 8 = i := by omega
  have : i % 8 < 8 := by omega
  simp_all

/-- The number a packed window holds, most significant byte first. -/
theorem packWindow_toNat (bs : List Byte) :
    (packWindow bs).toNat =
      (((((((bs.getD 0 0).toNat * 256 + (bs.getD 1 0).toNat) * 256 + (bs.getD 2 0).toNat) * 256 + (bs.getD 3 0).toNat) * 256 + (bs.getD 4 0).toNat) * 256 +
          (bs.getD 5 0).toNat) * 256 + (bs.getD 6 0).toNat) * 256 + (bs.getD 7 0).toNat := by
  have key : ∀ {n} (a : BitVec n) (b : Byte), (a ++ b).toNat = a.toNat * 256 + b.toNat := by
    intro n a b
    rw [BitVec.toNat_append, ← Nat.shiftLeft_add_eq_or_of_lt b.isLt, Nat.shiftLeft_eq]
  unfold packWindow
  simp only [key]

/-- The class of a window's first encoding, from the top two bits. -/
theorem firstClass_octets (win : Word) : (firstClass win).octets = 1 <<< (win.toNat / 2 ^ 62) := by
  have h : (tagBits (winByte win 0)).toNat = win.toNat / 2 ^ 62 := by
    have := win.isLt
    simp only [tagBits, BitVec.extractLsb'_toNat, winByte_toNat win (by decide : 0 < 8), Nat.shiftRight_eq_div_pow]
    omega
  rw [firstClass, octets_ofTag, h]

/-! ### The wire format -/

/-- An OR below a shifted number is a sum. -/
theorem shiftLeft_or_of_lt {a b n : Nat} (h : b < 2 ^ n) : (a <<< n) ||| b = a * 2 ^ n + b := by
  rw [← Nat.shiftLeft_add_eq_or_of_lt h, Nat.shiftLeft_eq]

/-- The tagged word of a value that fits its class is a sum: the tag loses no bit. -/
theorem taggedWord_of_fits (c : LenClass) {x : Nat} (h : x < 2 ^ c.usableBits) :
    taggedWord c x = c.tag.toNat * 2 ^ c.usableBits + x := shiftLeft_or_of_lt h

/-- An octet of an encoding, as a number. -/
theorem wireOctet_toNat (c : LenClass) {x : Nat} (h : x < 2 ^ c.usableBits) (k : Nat) :
    (wireOctet c x k).toNat = (c.tag.toNat * 2 ^ c.usableBits + x) / 2 ^ (8 * (c.octets - 1 - k)) % 256 := by
  simp [wireOctet, taggedWord_of_fits c h, Nat.shiftRight_eq_div_pow]

/-- The octets of an encoding by index; there is none beyond the class's length. -/
theorem wireOctets_getD (c : LenClass) (x k : Nat) :
    (wireOctets c x).getD k 0 = if k < c.octets then wireOctet c x k else 0 := by
  unfold wireOctets
  split <;> rename_i h <;> simp [List.getD_eq_getElem?_getD, h]

/-- One turn of the decoder's loop, as numbers. -/
theorem shiftIn_toNat (v : Word) (b : Byte) (h : v.toNat * 256 + b.toNat < 2 ^ 64) :
    ((v <<< 8) ||| b.setWidth 64).toNat = v.toNat * 256 + b.toNat := by
  have hb : b.toNat < 2 ^ 8 := b.isLt
  have hs : (v <<< 8).toNat = v.toNat <<< 8 := by
    rw [BitVec.toNat_shiftLeft, Nat.mod_eq_of_lt]
    rw [Nat.shiftLeft_eq]; exact lt_of_le_of_lt (Nat.le_add_right _ _) h
  have hz : (b.setWidth 64).toNat = b.toNat := by
    rw [BitVec.toNat_setWidth, Nat.mod_eq_of_lt]; omega
  simp only [BitVec.toNat_or, hs, hz]
  exact shiftLeft_or_of_lt hb

/-- The decoder's loop, as numbers, while the result fits. -/
theorem foldl_shiftIn_toNat (f : Nat → Byte) (l : List Nat) (v : Word) (h : (v.toNat + 1) * 256 ^ l.length ≤ 2 ^ 64) :
    (l.foldl (fun (w : Word) i => (w <<< 8) ||| (f i).setWidth 64) v).toNat =
      l.foldl (fun (n : Nat) i => n * 256 + (f i).toNat) v.toNat := by
  induction l generalizing v with
  | nil => rfl
  | cons i l ih =>
    have hb : (f i).toNat < 256 := (f i).isLt
    have hp : 1 ≤ 256 ^ l.length := Nat.one_le_pow _ _ (by decide)
    have hm : (v.toNat * 256 + (f i).toNat + 1) * 256 ^ l.length ≤ (v.toNat + 1) * 256 ^ (l.length + 1) := by
      rw [pow_succ', ← mul_assoc]
      exact Nat.mul_le_mul_right _ (by omega)
    have hs := shiftIn_toNat v (f i) (by rw [List.length_cons] at h; nlinarith)
    rw [List.foldl_cons, ih _ (by rw [hs]; exact hm.trans h), hs, List.foldl_cons]

/-- The decoded value as the source says it: the six retained bits, then the later octets. -/
theorem wireValue_toNat (win : Word) (c : LenClass) :
    (wireValue win c).toNat =
      (List.range (c.octets - 1)).foldl (fun (n : Nat) i => n * 256 + (winByte win (i + 1)).toNat)
        ((winByte win 0).toNat % 64) := by
  have h0 : (((winByte win 0).extractLsb' 0 6).setWidth 64).toNat = (winByte win 0).toNat % 64 := by
    simp [BitVec.extractLsb'_toNat]; omega
  have hlt := Nat.mod_lt (winByte win 0).toNat (by decide : 64 > 0)
  unfold wireValue
  rw [foldl_shiftIn_toNat (fun i => winByte win (i + 1)), h0]
  rw [h0, List.length_range]
  calc _ ≤ 64 * 256 ^ 7 := Nat.mul_le_mul (by omega) (Nat.pow_le_pow_right (by decide) (by have := octets_le_eight c; omega))
    _ ≤ _ := by decide

/-- The decoded value as the first `L` bytes of the window without their tag. -/
theorem wireValue_eq_mod (win : Word) (c : LenClass) :
    (wireValue win c).toNat = win.toNat / 2 ^ (64 - 8 * c.octets) % 2 ^ (8 * c.octets - 2) := by
  have := win.isLt
  rw [wireValue_toNat]
  cases c <;> simp [LenClass.octets, List.range, List.range.loop, winByte_toNat] <;> omega

end Sys2Proof.Machine
end

