-- ==== Sys2Proof/Laws/Exec.lean ====
section
/-! SUPPORT. What a command, a host access and a host line can do, said once: inversion lemmas that later proofs cite instead of
unfolding `exec` and `step`. -/

namespace Sys2Proof.Machine

/-- Every command ends with one call of `finish` (60_exceptions.md R182). -/
theorem exec_finishes (i : Instr) (s : State) : ∃ code r, exec i s = .next (finish code r s) := by
  have inRange : ∀ n r, ∃ code q, finishInRange n r s = .next (finish code q s) := by
    intro n r; unfold finishInRange; split <;> exact ⟨_, _, rfl⟩
  cases i with
  | fromU8 => exact ⟨_, _, rfl⟩
  | fromU16 => exact ⟨_, _, rfl⟩
  | fromU32 => exact ⟨_, _, rfl⟩
  | fromU64 => exact inRange _ _
  | size => exact inRange _ _
  | toVal => exact inRange _ _
  | add =>
    simp only [exec, execAdd]
    split
    · exact ⟨_, _, rfl⟩
    · exact inRange _ _
  | addlen => simp only [exec, execAddlen]; split <;> [skip; split] <;> exact ⟨_, _, rfl⟩
  | cls => exact ⟨_, _, rfl⟩
  | dec => simp only [exec, execDec]; split <;> [skip; split] <;> exact ⟨_, _, rfl⟩
  | enc => simp only [exec, execEnc]; split <;> [skip; split] <;> exact ⟨_, _, rfl⟩

/-- A write to `CMD` completes: the word stands in `CMD`, and the rest is one `finish`. -/
theorem issueCommand_finishes (word : Word) (s : State) :
    ∃ code r, issueCommand word s = .next (finish code r (s.setReg .cmd word)) := by
  unfold issueCommand
  dsimp only
  split
  · exact exec_finishes _ _
  · exact ⟨_, _, rfl⟩

/-- A host write of a slot issues a command, stores a value in another input register, or is ignored. -/
theorem hostWrite_cases (off : BitVec 8) (v : Word) (s : State) :
    off = Reg.cmd.offset ∧ hostWrite off v s = issueCommand v s ∨
      (∃ r, r.hostAccess = .readWrite ∧ r ≠ .cmd ∧ off = r.offset ∧ hostWrite off v s = .next (s.setReg r v)) ∨
      hostWrite off v s = .next s := by
  by_cases h : off = Reg.cmd.offset
  · exact .inl ⟨h, by simp [hostWrite, h]⟩
  · have hw : hostWrite off v s = .next (s.storeOffset off v) := by simp [hostWrite, h]
    cases hr : Reg.ofOffset off with
    | none => exact .inr (.inr (by simp [hw, State.storeOffset, hr]))
    | some r =>
      have ho := offset_of_ofOffset hr
      subst ho
      cases ha : r.hostAccess with
      | readWrite => exact .inr (.inl ⟨r, ha, fun hc => h (by rw [hc]), rfl, by rw [hw, storeOffset_readWrite s v ha]⟩)
      | readOnly => exact .inr (.inr (by rw [hw, storeOffset_readOnly s v ha]))

end Sys2Proof.Machine
end

