-- ==== Sys2Proof/Laws/PerInstr.lean ====
section
/-! SUPPORT. The statements made once per command. -/

namespace Sys2Proof.Laws

/-- The word of a command passes the three checks of 30_encoding.md R63. -/
def WordWellFormed.Statement (i : Instr) : Prop := (cmdFields (encode i)).wf = true

theorem WordWellFormed.fromU8 : WordWellFormed.Statement .fromU8 := by unfold WordWellFormed.Statement; decide
theorem WordWellFormed.fromU16 : WordWellFormed.Statement .fromU16 := by unfold WordWellFormed.Statement; decide
theorem WordWellFormed.fromU32 : WordWellFormed.Statement .fromU32 := by unfold WordWellFormed.Statement; decide
theorem WordWellFormed.fromU64 : WordWellFormed.Statement .fromU64 := by unfold WordWellFormed.Statement; decide
theorem WordWellFormed.size : WordWellFormed.Statement .size := by unfold WordWellFormed.Statement; decide
theorem WordWellFormed.toVal : WordWellFormed.Statement .toVal := by unfold WordWellFormed.Statement; decide
theorem WordWellFormed.add : WordWellFormed.Statement .add := by unfold WordWellFormed.Statement; decide
theorem WordWellFormed.addlen : WordWellFormed.Statement .addlen := by unfold WordWellFormed.Statement; decide
theorem WordWellFormed.cls : WordWellFormed.Statement .cls := by unfold WordWellFormed.Statement; decide
theorem WordWellFormed.dec : WordWellFormed.Statement .dec := by unfold WordWellFormed.Statement; decide
theorem WordWellFormed.enc : WordWellFormed.Statement .enc := by unfold WordWellFormed.Statement; decide

end Sys2Proof.Laws
end

