-- ==== Sys2Proof/Laws/Step.lean ====
section
/-! SUPPORT. What a host line, and so a step, can do, said once: `performLine_next` and `step_next`. -/

namespace Sys2Proof.Machine

/-- A change of the host's own fields that keeps its cursor within its buffer and its variables in order. -/
def HostOnly (s t : State) : Prop :=
  ∃ h, t = { s with host := h } ∧ (s.cursorLegal → t.cursorLegal) ∧ (s.varsLegal → t.varsLegal)

/-- Changing nothing is a change of the host alone. -/
theorem HostOnly.refl (s : State) : HostOnly s s := ⟨s.host, rfl, id, id⟩

/-- Going to the next line is a change of the host alone. -/
theorem HostOnly.nextLine (s : State) : HostOnly s s.nextLine := ⟨_, rfl, id, id⟩

/-- Two changes of the host alone make one. -/
theorem HostOnly.trans {s t u : State} (a : HostOnly s t) (b : HostOnly t u) : HostOnly s u := by
  obtain ⟨h, rfl, ha⟩ := a
  obtain ⟨k, rfl, hb⟩ := b
  exact ⟨k, rfl, hb.1 ∘ ha.1, hb.2 ∘ ha.2⟩

/-- What one access of a slot can do. -/
inductive SlotWrite (off : BitVec 8) (s t : State) : Prop
  | issues (word : Word) (ho : off = Reg.cmd.offset) (h : issueCommand word s = .next t)
  | stores (r : Reg) (v : Word) (hr : r.hostAccess = .readWrite) (hc : r ≠ .cmd) (ho : off = r.offset) (h : t = s.setReg r v)
  | ignored (h : t = s)

/-- A host write that completes has one of the three effects. -/
theorem hostWrite_next {off : BitVec 8} {v : Word} {s t : State} (h : hostWrite off v s = .next t) : SlotWrite off s t := by
  rcases hostWrite_cases off v s with ⟨ho, e⟩ | ⟨r, hr, hc, ho, e⟩ | e <;> rw [e] at h
  · exact .issues v ho h
  · cases h; exact .stores r v hr hc ho rfl
  · cases h; exact .ignored rfl

/-- So has a write of any width at any offset: it is refused or it is a host write. -/
theorem writeAt_next {sz : AccessSize} {off : BitVec 8} {v : Word} {s t : State} (h : writeAt sz off v s = .next t) :
    SlotWrite off s t := by
  unfold writeAt at h
  split at h
  · cases h
  · exact hostWrite_next h

/-- A host read changes the host alone. -/
theorem hostRead_next {off : BitVec 8} {s t : State} (h : hostRead off s = .next t) : HostOnly s t := by
  cases h; exact ⟨_, rfl, id, id⟩

/-- So does a read of any width at any offset. -/
theorem readAt_next {sz : AccessSize} {off : BitVec 8} {s t : State} (h : readAt sz off s = .next t) : HostOnly s t := by
  unfold readAt at h
  split at h
  · cases h
  · exact hostRead_next h

/-- A `goto` changes the host alone. -/
theorem gotoLine_next {l : Nat} {s t : State} (h : gotoLine l s = .next t) : HostOnly s t := by
  unfold gotoLine at h
  split at h
  · cases h; exact ⟨_, rfl, id, id⟩
  · cases h

/-- A cursor move changes the host alone. -/
theorem inSeek_hostOnly {c : Nat} {s t : State} (h : inSeek c s = .next t) : HostOnly s t := by
  obtain ⟨hc, rfl⟩ := inSeek_next h
  exact ⟨_, rfl, fun _ => hc, id⟩

/-- What a host line that completes can do: issue a command, store a value in an input register, present a stream, reset, or
change the host alone. -/
inductive LineEffect (line : HostLine) (s t : State) : Prop
  | issues (word : Word) (hl : line.mayChangeResults = true) (hc : line.mayWriteInput .cmd = true)
      (h : issueCommand word s.nextLine = .next t)
  | stores (r : Reg) (v : Word) (hr : r.hostAccess = .readWrite) (hc : r ≠ .cmd) (hl : line.mayWriteInput r = true)
      (h : t = s.nextLine.setReg r v)
  | presents (pad : Word) (hl : line = .inPresent pad) (rem win : Word) (h : t = (s.nextLine.setReg .inRem rem).setReg .inWin win)
  | resets (hl : line = .reset) (h : t = s.nextLine.assertReset)
  | host (h : HostOnly s t)

/-- The effect of a line that makes one host write. -/
theorem SlotWrite.lineEffect {off : BitVec 8} {line : HostLine} {s t : State} (h : SlotWrite off s.nextLine t)
    (hl : off = Reg.cmd.offset → line.mayChangeResults = true) (hi : ∀ r, off = r.offset → line.mayWriteInput r = true) :
    LineEffect line s t := by
  cases h with
  | issues word ho h => exact .issues word (hl ho) (hi _ ho) h
  | stores r v hr hc ho h => exact .stores r v hr hc (hi r ho) h
  | ignored h => subst h; exact .host (HostOnly.nextLine s)

/-- No two registers share an offset. -/
theorem offset_injective {q r : Reg} (h : q.offset = r.offset) : q = r := by
  have := congrArg Reg.ofOffset h
  simpa using this

/-- The address that names an offset is the offset's own. -/
theorem offsetOfAddress_eq_some {addr : Nat} {off : BitVec 8} (h : offsetOfAddress addr = some off) : addr = addressOf off := by
  unfold offsetOfAddress at h
  split at h
  · rename_i hb
    cases h
    simp only [Config.registerWindowBytes] at hb
    simp only [addressOf, BitVec.toNat_ofNat]
    omega
  · cases h

/-- A host line that completes has one of the five effects. -/
theorem performLine_next {line : HostLine} {s t : State} (h : performLine line s = .next t) : LineEffect line s t := by
  have host : HostOnly s.nextLine t → LineEffect line s t := fun k => .host ((HostOnly.nextLine s).trans k)
  cases line with
  | command i =>
    exact (hostWrite_next h).lineEffect (fun _ => rfl) fun r hr =>
      decide_eq_true (offset_injective hr).symm
  | wr r v =>
    simp only [performLine, wrLine] at h
    split at h
    · refine (hostWrite_next h).lineEffect (fun hr => ?_) fun q hr => ?_
      · exact decide_eq_true (offset_injective hr)
      · exact decide_eq_true (offset_injective hr).symm
    · cases h
  | rd r => exact host (hostRead_next h)
  | label l => cases h; exact host (HostOnly.refl _)
  | ifGoto c l =>
    simp only [performLine, ifGotoLine] at h
    split at h
    · cases h
    · split at h
      · exact host (gotoLine_next h)
      · cases h; exact host (HostOnly.refl _)
  | goto l => exact host (gotoLine_next h)
  | halt => cases h; exact .host (HostOnly.refl _)
  | inPresent pad =>
    obtain ⟨_, rfl⟩ := inPresent_next h
    exact .presents pad rfl (BitVec.ofNat 64 s.host.input.remaining) (s.host.input.window pad) rfl
  | inAdvance => exact host (inSeek_hostOnly h)
  | outPresent =>
    obtain ⟨_, rfl⟩ := outPresent_next h
    exact .stores .outCap _ rfl (by decide) rfl rfl
  | outAppend =>
    obtain ⟨_, _, rfl⟩ := outAppend_next h
    exact host ⟨_, rfl, id, id⟩
  | readAt sz off => exact host (readAt_next h)
  | writeAt sz off v =>
    exact (writeAt_next h).lineEffect (fun ho => decide_eq_true ho) fun r hr => decide_eq_true hr
  | busRead sz addr =>
    simp only [performLine, busRead] at h
    split at h
    · exact host (readAt_next h)
    · cases h
  | busWrite sz addr v =>
    simp only [performLine, busWrite] at h
    split at h
    · rename_i off ho
      have ha := offsetOfAddress_eq_some ho
      refine (writeAt_next h).lineEffect (fun hc => ?_) fun r hr => ?_
      · exact decide_eq_true (by rw [ha, hc]; rfl)
      · exact decide_eq_true (by rw [ha, hr])
    · cases h
  | assign n v =>
    simp only [performLine, assignLine] at h
    split at h
    · cases h; exact host ⟨_, rfl, id, setVar_keeps_order _ _⟩
    · cases h
  | inFeed bs =>
    cases h
    refine host ⟨_, rfl, fun hc => ?_, id⟩
    simp only [State.cursorLegal, State.withInput, List.length_append] at hc ⊢
    omega
  | inSeek c => exact host (inSeek_hostOnly h)
  | outGrow n => cases h; exact host ⟨_, rfl, id, id⟩
  | outFlush cap => cases h; exact host ⟨_, rfl, id, id⟩
  | outToIn => cases h; exact host ⟨_, rfl, fun _ => Nat.zero_le _, id⟩
  | reset => cases h; exact .resets rfl rfl

/-- A step that writes a word to `CMD`, in any of the ways there are, issues the word with the host at its next line. -/
theorem step_of_writesToCmd {word : Word} {s : State} (h : writesToCmd word s) : step s = issueCommand word s.nextLine := by
  have line : ∀ {l}, fetchLine s = some l → step s = performLine l s := fun hl => by simp only [step, hostStep, hl]
  rcases h with ⟨i, hl, rfl⟩ | ⟨v, hl, hv⟩ | hl | hl <;> rw [line hl]
  · rfl
  · have hn : hostValue v s.nextLine.host = some word := hv
    simp only [performLine, wrLine, hn]
    rfl
  · rfl
  · simp only [performLine, busWrite, offsetOfAddress_addressOf]
    rfl

/-- A step that completes leaves the state as it is, or performs one line. -/
theorem step_next {s t : State} (h : step s = .next t) :
    fetchLine s = none ∧ t = s ∨ ∃ line, fetchLine s = some line ∧ LineEffect line s t := by
  unfold step hostStep at h
  split at h
  · rename_i line hl; exact .inr ⟨line, hl, performLine_next h⟩
  · rename_i hl; cases h; exact .inl ⟨hl, rfl⟩

end Sys2Proof.Machine
end

