-- ==== Sys2Proof/Tests/Slice0.lean ====
section
/-! SUPPORT. The model's own tests. Expected results are the spec's: the opcode table and the vectors of 95_test_vectors.md
(numbers of its sections in the comments). Each `witness_…` shows that the hypotheses of the statement of that name can be met,
at the edges of each clause's range. -/

namespace Sys2Proof.Tests

open Sys2Proof Sys2Proof.Machine

/-- The reset state with these input registers (95_test_vectors.md section 2: "issued alone from the reset state"). -/
def inputs (opa opb inRem inWin outCap : Word) : State :=
  { State.reset with opa := opa, opb := opb, inRem := inRem, inWin := inWin, outCap := outCap }

/-- The reset state with this first operand. -/
def opaIs (v : Word) : State := inputs v 0 0 0 0

/-- The reset state with this input window and count. -/
def stream (rem win : Word) : State := inputs 0 0 rem win 0

/-- The reset state with this value and capacity. -/
def sinkFor (v cap : Word) : State := inputs v 0 0 0 cap

/-- The reset state with these bytes in the host's input buffer. -/
def hostBytes (bs : List Byte) (cursor : Nat) : State := State.reset.withInput { bytes := bs, cursor := cursor }

/-- The reset state whose host performs this line next. -/
def about (line : HostLine) : State := { State.reset with host := { HostAgent.idle with program := [line] } }

/-- Whether an outcome is this next state. -/
def answers (o : Host.Outcome State Fault Refusal) (t : State) : Bool :=
  match o with
  | .next u => u = t
  | .fault _ => false
  | .refused _ => false

/-- Whether an outcome is a next state with this property. -/
def nextHas (o : Host.Outcome State Fault Refusal) (p : State → Bool) : Bool :=
  match o with
  | .next u => p u
  | .fault _ => false
  | .refused _ => false

/-- Whether an outcome is this fault. -/
def faults (o : Host.Outcome State Fault Refusal) (f : Fault) : Bool :=
  match o with
  | .next _ => false
  | .fault g => g = f
  | .refused _ => false

/-- Whether an outcome is this refusal. -/
def refuses (o : Host.Outcome State Fault Refusal) (r : Refusal) : Bool :=
  match o with
  | .next _ => false
  | .fault _ => false
  | .refused q => q = r

/-- The command a word decodes to, if it does. -/
def decodesTo (word : Word) : Option Instr := (decode word).toOption

/-! ### Well-formedness: each check refuses an ill-formed term -/

theorem test_wf_accepts_a_legal_word : (cmdFields 0x31).wf = true := by decide
theorem test_wf_refuses_reserved_bits : (CmdFields.mk 1 0 7).rsvOk = false ∧ (CmdFields.mk 1 0 7).wf = false := by decide
theorem test_wf_refuses_opcode_zero : (CmdFields.mk 0 0 0).opOk = false ∧ (CmdFields.mk 0 0 9).opOk = false := by decide
theorem test_wf_refuses_width_without_from : (CmdFields.mk 0 1 2).widthOk = false ∧ (CmdFields.mk 0 1 2).wf = false := by decide
theorem test_wf_refuses_a_missing_label : targetsDeclared [.label 1, .goto 2] = false := by decide
theorem test_wf_refuses_a_label_twice : labelsDistinct [.label 1, .label 1] = false := by decide
theorem test_wf_accepts_a_loop : programWf [.label 1, .command .dec, .goto 1] = true := by decide

/-! ### Decoding: each row's word, written out from opcode_table.json's "encoding" -/

theorem test_decode_fromU8 :
    decodeTableWord 64 0b0000000000000000000000000000000000000000000000000000000000000001 = some .fromU8 := by decide
theorem test_decode_fromU16 :
    decodeTableWord 64 0b0000000000000000000000000000000000000000000000000000000000010001 = some .fromU16 := by decide
theorem test_decode_fromU32 :
    decodeTableWord 64 0b0000000000000000000000000000000000000000000000000000000000100001 = some .fromU32 := by decide
theorem test_decode_fromU64 :
    decodeTableWord 64 0b0000000000000000000000000000000000000000000000000000000000110001 = some .fromU64 := by decide
theorem test_decode_size :
    decodeTableWord 64 0b0000000000000000000000000000000000000000000000000000000000000010 = some .size := by decide
theorem test_decode_toVal :
    decodeTableWord 64 0b0000000000000000000000000000000000000000000000000000000000000011 = some .toVal := by decide
theorem test_decode_add :
    decodeTableWord 64 0b0000000000000000000000000000000000000000000000000000000000000100 = some .add := by decide
theorem test_decode_addlen :
    decodeTableWord 64 0b0000000000000000000000000000000000000000000000000000000000000101 = some .addlen := by decide
theorem test_decode_cls :
    decodeTableWord 64 0b0000000000000000000000000000000000000000000000000000000000000110 = some .cls := by decide
theorem test_decode_dec :
    decodeTableWord 64 0b0000000000000000000000000000000000000000000000000000000000000111 = some .dec := by decide
theorem test_decode_enc :
    decodeTableWord 64 0b0000000000000000000000000000000000000000000000000000000000001000 = some .enc := by decide

/-- 95_test_vectors.md section 2.5: no illegal word decodes. -/
theorem test_decode_refuses_illegal_words :
    [0x00, 0x09, 0x0F, 0x12, 0x16, 0x37, 0x38, 0x47, 0x100, 0x8000000000000000].map decodesTo =
      List.replicate 10 none := by decide

/-! ### Commands: vectors of 95_test_vectors.md sections 2.1 to 2.4 -/

theorem test_fromU8_ignores_high_bits :
    answers (exec .fromU8 (opaIs 0x1ff)) ((opaIs 0x1ff).withResults 0 0xff 0 0 0 0) = true := by decide
theorem test_fromU16_ignores_high_bits :
    answers (exec .fromU16 (opaIs 0x12345)) ((opaIs 0x12345).withResults 0 0x2345 0 0 0 0) = true := by decide
theorem test_fromU32_ignores_high_bits :
    answers (exec .fromU32 (opaIs 0x100000005)) ((opaIs 0x100000005).withResults 0 5 0 0 0 0) = true := by decide
theorem test_fromU64_above_the_bound :
    answers (exec .fromU64 (opaIs 0x4000000000000000)) ((opaIs 0x4000000000000000).withResults 4 0 0 0 0 0) = true := by decide
theorem test_size_of_16384 :
    answers (exec .size (opaIs 0x4000)) ((opaIs 0x4000).withResults 0 0 4 0 0 0) = true := by decide
theorem test_to_at_the_bound :
    answers (exec .toVal (opaIs 0x3fffffffffffffff)) ((opaIs 0x3fffffffffffffff).withResults 0 0x3fffffffffffffff 0 0 0 0) =
      true := by decide
theorem test_add_within_the_bound :
    answers (exec .add (inputs 0x1fffffffffffffff 0x1fffffffffffffff 0 0 0))
      ((inputs 0x1fffffffffffffff 0x1fffffffffffffff 0 0 0).withResults 0 0x3ffffffffffffffe 0 0 0 0) = true := by decide
theorem test_add_beyond_the_bound :
    answers (exec .add (inputs 0x2000000000000000 0x2000000000000000 0 0 0))
      ((inputs 0x2000000000000000 0x2000000000000000 0 0 0).withResults 4 0 0 0 0 0) = true := by decide
theorem test_addlen_reports_overflow :
    answers (exec .addlen (inputs 0x3fffffffffffffff 0xc000000000000001 0 0 0))
      ((inputs 0x3fffffffffffffff 0xc000000000000001 0 0 0).withResults 5 0 0 0 0 0) = true := by decide
theorem test_addlen_range_before_overflow :
    answers (exec .addlen (inputs 0x4000000000000000 0xffffffffffffffff 0 0 0))
      ((inputs 0x4000000000000000 0xffffffffffffffff 0 0 0).withResults 4 0 0 0 0 0) = true := by decide
theorem test_cls_empty_result_is_ok :
    answers (exec .cls (opaIs 0x4000000000000000)) ((opaIs 0x4000000000000000).withResults 0 0 0 0 0 0) = true := by decide
theorem test_dec_four_octets :
    answers (exec .dec (stream 4 0x9d7f3e7da5a5a5a5))
      ((stream 4 0x9d7f3e7da5a5a5a5).withResults 0 0x1d7f3e7d 4 4 0 0) = true := by decide
theorem test_dec_truncated_by_one :
    answers (exec .dec (stream 7 0xc2197c5eff14e8a5)) ((stream 7 0xc2197c5eff14e8a5).withResults 1 0 0 1 0 0) = true := by decide
theorem test_enc_eight_octets :
    answers (exec .enc (sinkFor 0x2197c5eff14e88c 8))
      ((sinkFor 0x2197c5eff14e88c 8).withResults 0 0 8 0 8 0xc2197c5eff14e88c) = true := by decide
theorem test_enc_oversized_before_nospace :
    answers (exec .enc (sinkFor 0x4000000000000000 0)) ((sinkFor 0x4000000000000000 0).withResults 2 0 0 0 0 0) = true := by decide

/-! ### Host accesses (10_state.md R27, R28) and steps -/

theorem test_write_to_result_register_is_ignored :
    answers (hostWrite 0x48 7 State.reset) State.reset = true := by decide
theorem test_narrow_access_is_refused : refuses (writeAt .bits32 0x08 7 State.reset) .narrowAccess = true := by decide
theorem test_unaligned_access_is_refused : refuses (readAt .bits64 0x0c State.reset) .unalignedAccess = true := by decide
/-- 95_test_vectors.md section 2.5: an illegal word is reported, and `CMD` reads back the word. -/
theorem test_step_reports_an_illegal_word :
    answers (step (about (.wr .cmd (.lit 0x12))))
      ({ about (.wr .cmd (.lit 0x12)) with cmd := 0x12 }.nextLine.withResults 6 0 0 0 0 0) = true := by decide
theorem test_step_runs_a_placed_word :
    nextHas (step (State.reset.withFetchWord 64 0x08)) (fun t => decide (t.status = 3 ∧ t.cmd = 8)) = true := by decide
/-- 20_memory.md R46 and 95_test_vectors.md P2, iteration 2: the window from cursor 1. -/
theorem test_in_present :
    nextHas (inPresent 0 (hostBytes [0x25, 0x7B, 0xBD, 0x9D, 0x7F, 0x3E, 0x7D, 0x40] 1))
      (fun t => decide (t.inRem = 7 ∧ t.inWin = 0x7BBD9D7F3E7D4000)) = true := by decide
theorem test_cursor_stays_in_the_buffer :
    faults (inSeek 3 (hostBytes [0x25, 0x7B] 0)) .cursorPastEnd = true := by decide
theorem test_assembler_spelling : assemble "FROM.SZ" = some 0x31 := by decide

/-! ### Witnesses -/

theorem witness_IllegalWordsAreTheReservedOnes :
    (decodesTo 0x40 = none ∧ decodesTo 0x00 = none ∧ decodesTo 0x09 = none ∧ decodesTo 0x3F = none ∧ decodesTo 0x12 = none) ∧
      decodesTo 0x01 = some .fromU8 ∧ decodesTo 0x08 = some .enc ∧ decodesTo 0x31 = some .fromU64 := by decide

theorem witness_FromU64ChecksTheRange :
    (opaIs 0x3fffffffffffffff).opa.toNat ≤ 2 ^ 62 - 1 ∧ 2 ^ 62 - 1 < (opaIs 0x4000000000000000).opa.toNat ∧
      2 ^ 62 - 1 < (opaIs 0xffffffffffffffff).opa.toNat := by decide

theorem witness_SizeGivesTheMinimalLength :
    answers (exec .size (opaIs 63)) ((opaIs 63).withResults 0 0 1 0 0 0) = true ∧
      answers (exec .size (opaIs 64)) ((opaIs 64).withResults 0 0 2 0 0 0) = true ∧
      answers (exec .size (opaIs 16383)) ((opaIs 16383).withResults 0 0 2 0 0 0) = true ∧
      answers (exec .size (opaIs 1073741823)) ((opaIs 1073741823).withResults 0 0 4 0 0 0) = true ∧
      answers (exec .size (opaIs 1073741824)) ((opaIs 1073741824).withResults 0 0 8 0 0 0) = true ∧
      answers (exec .size (opaIs 4611686018427387904)) ((opaIs 4611686018427387904).withResults 4 0 0 0 0 0) = true := by decide

theorem witness_SizeAgreesWithClassify :
    answers (exec .size (opaIs 63)) ((opaIs 63).withResults 0 0 1 0 0 0) = true ∧
      (opaIs 63).opa.toNat ≤ 2 ^ 62 - 1 := by decide

theorem witness_ToExtractsAValidatedValue :
    (opaIs 0x3fffffffffffffff).opa.toNat ≤ 2 ^ 62 - 1 ∧ 2 ^ 62 - 1 < (opaIs 0x4000000000000000).opa.toNat := by decide

theorem witness_AddIsExactOrRange :
    let fits := inputs 0x3fffffffffffffff 0 0 0 0
    let first := inputs 0x4000000000000000 0 0 0 0
    let second := inputs 0 0x4000000000000000 0 0 0
    let total := inputs 0x3fffffffffffffff 1 0 0 0
    (fits.opa.toNat ≤ 2 ^ 62 - 1 ∧ fits.opb.toNat ≤ 2 ^ 62 - 1 ∧ fits.opa.toNat + fits.opb.toNat ≤ 2 ^ 62 - 1) ∧
      2 ^ 62 - 1 < first.opa.toNat ∧ 2 ^ 62 - 1 < second.opb.toNat ∧ 2 ^ 62 - 1 < total.opa.toNat + total.opb.toNat := by decide

theorem witness_AddCommutesAndNeverWraps :
    answers (exec .add (inputs 0x3fff 1 0 0 0)) ((inputs 0x3fff 1 0 0 0).withResults 0 0x4000 0 0 0 0) = true ∧
      answers (exec .add (inputs 1 0x3fff 0 0 0)) ((inputs 1 0x3fff 0 0 0).withResults 0 0x4000 0 0 0 0) = true ∧
      answers (exec .add (inputs 0x3fff 0 0 0 0)) ((inputs 0x3fff 0 0 0 0).withResults 0 0x3fff 0 0 0 0) = true := by decide

theorem witness_AddlenIsExactOrReportsOverflow :
    let range := inputs 0x4000000000000000 0 0 0 0
    let beyond := inputs 0x3fffffffffffffff 0xc000000000000001 0 0 0
    let fits := inputs 0x3fffffffffffffff 0xc000000000000000 0 0 0
    2 ^ 62 - 1 < range.opa.toNat ∧
      (beyond.opa.toNat ≤ 2 ^ 62 - 1 ∧ 2 ^ 64 - 1 < beyond.opa.toNat + beyond.opb.toNat) ∧
      fits.opa.toNat ≤ 2 ^ 62 - 1 ∧ fits.opa.toNat + fits.opb.toNat ≤ 2 ^ 64 - 1 := by decide

theorem witness_NoOkValueExceedsTheBound :
    Instr.toVal ≠ .addlen ∧ 2 ^ 62 - 1 < (opaIs 0x4000000000000000).opa.toNat ∧
      2 ^ 62 - 1 < (inputs 0 0x4000000000000000 0 0 0).opb.toNat ∧
      answers (exec .toVal (opaIs 0x3fffffffffffffff)) ((opaIs 0x3fffffffffffffff).withResults 0 0x3fffffffffffffff 0 0 0 0) =
        true := by decide

theorem witness_ClsReportsTheLengthOrZero :
    answers (exec .cls (opaIs 63)) ((opaIs 63).withResults 0 0 1 0 0 0) = true ∧
      answers (exec .cls (opaIs 64)) ((opaIs 64).withResults 0 0 2 0 0 0) = true ∧
      answers (exec .cls (opaIs 16384)) ((opaIs 16384).withResults 0 0 4 0 0 0) = true ∧
      answers (exec .cls (opaIs 1073741824)) ((opaIs 1073741824).withResults 0 0 8 0 0 0) = true ∧
      answers (exec .cls (opaIs 0xffffffffffffffff)) ((opaIs 0xffffffffffffffff).withResults 0 0 0 0 0 0) = true := by decide

theorem witness_ClassifyIsMonotoneAndMinimal :
    (63 : Word).toNat ≤ (64 : Word).toNat ∧ classify 64 = some .two ∧ 1 < LenClass.two.octets := by decide

theorem witness_DecOnAnEmptyStream : (stream 0 0x2500000000000000).inRem = 0 := by decide

theorem witness_DecOnATruncatedStream :
    let s := (stream 7 0xc2197c5eff14e800).withInput { bytes := [0xc2, 0, 0, 0, 0, 0, 0], cursor := 0 }
    1 ≤ s.inRem.toNat ∧ s.inRem.toNat < 1 <<< (s.inWin.toNat / 2 ^ 62) ∧
      s.host.input.cursor + 1 ≤ s.host.input.bytes.length := by decide

theorem witness_DecReconstructsTheValue :
    let s := stream 2 0x7bbd000000000000
    let e := stream 8 0xffffffffffffffff
    2 = 1 <<< (s.inWin.toNat / 2 ^ 62) ∧ 2 ≤ s.inRem.toNat ∧ 8 = 1 <<< (e.inWin.toNat / 2 ^ 62) ∧ 8 ≤ e.inRem.toNat := by decide

theorem witness_DecConsumesWhatItNeeds :
    let s := stream 1 0x7bbd000000000000
    let e := stream 2 0x7bbd000000000000
    2 = 1 <<< (s.inWin.toNat / 2 ^ 62) ∧ (stream 0 0x7bbd000000000000).inRem.toNat = 0 ∧
      (1 ≤ s.inRem.toNat ∧ s.inRem.toNat < 2) ∧ 2 ≤ e.inRem.toNat := by decide

theorem witness_DecDependsOnlyOnTheBytesItReads :
    let s := stream 8 0x25ffffffffffffff
    let s' := { inputs 1 2 8 0x2500000000000000 3 with cmd := 8, res := 4 }
    let short := stream 7 0xc2ffffffffffffff
    let short' := inputs 1 2 7 0xc200000000000000 3
    (s'.inRem = s.inRem ∧ (1 ≤ s.inRem.toNat → winByte s'.inWin 0 = winByte s.inWin 0) ∧
      1 <<< (s.inWin.toNat / 2 ^ 62) ≤ s.inRem.toNat ∧
      ∀ k < 1 <<< (s.inWin.toNat / 2 ^ 62), winByte s'.inWin k = winByte s.inWin k) ∧
    (short'.inRem = short.inRem ∧ (1 ≤ short.inRem.toNat → winByte short'.inWin 0 = winByte short.inWin 0) ∧
      ¬1 <<< (short.inWin.toNat / 2 ^ 62) ≤ short.inRem.toNat) := by decide

theorem witness_TruncationIsTheOnlyDecodeFailure :
    1 <<< ((stream 1 0x2500000000000000).inWin.toNat / 2 ^ 62) ≤ (stream 1 0x2500000000000000).inRem.toNat ∧
      (stream 3 0x9d7f3e0000000000).inRem.toNat < 1 <<< ((stream 3 0x9d7f3e0000000000).inWin.toNat / 2 ^ 62) := by decide

theorem witness_DecodedValuesAreValidated :
    1 <<< ((stream 8 0xffffffffffffffff).inWin.toNat / 2 ^ 62) ≤ (stream 8 0xffffffffffffffff).inRem.toNat := by decide

theorem witness_NonMinimalEncodingsDecode :
    37 < 2 ^ (8 * LenClass.two.octets - 2) ∧ LenClass.two.octets ≤ (stream 2 0x4025000000000000).inRem.toNat ∧
      (∀ k < LenClass.two.octets,
        (winByte (stream 2 0x4025000000000000).inWin k).toNat =
          (LenClass.two.tag.toNat * 2 ^ (8 * LenClass.two.octets - 2) + 37) / 2 ^ (8 * (LenClass.two.octets - 1 - k)) % 256) ∧
      classify 37 = some .one ∧
      (stream 2 0x4025000000000000).inRem = 2 ∧ (stream 2 0x4025000000000000).inWin = 0x4025000000000000 := by decide

theorem witness_EncOversizedForEveryCapacity : 2 ^ 62 ≤ (opaIs 0x4000000000000000).opa.toNat := by decide

theorem witness_EncWithoutSpaceWritesNothing :
    classify (sinkFor 0x40000000 7).opa = some .eight ∧ (sinkFor 0x40000000 7).outCap.toNat < LenClass.eight.octets ∧
      LenClass.eight.octets ≤ (sinkFor 0x40000000 8).outCap.toNat := by decide

theorem witness_EncWritesTheTaggedWord :
    2 ^ 62 ≤ (sinkFor 0x4000000000000000 8).opa.toNat ∧ classify (sinkFor 64 1).opa = some .two ∧
      (sinkFor 64 1).outCap.toNat < LenClass.two.octets ∧
    answers (exec .enc (sinkFor 63 1)) ((sinkFor 63 1).withResults 0 0 1 0 1 0x3f00000000000000) = true ∧
      answers (exec .enc (sinkFor 64 2)) ((sinkFor 64 2).withResults 0 0 2 0 2 0x4040000000000000) = true ∧
      answers (exec .enc (sinkFor 16384 4)) ((sinkFor 16384 4).withResults 0 0 4 0 4 0x8000400000000000) = true ∧
      answers (exec .enc (sinkFor 1073741824 8)) ((sinkFor 1073741824 8).withResults 0 0 8 0 8 0xc000000040000000) = true := by
  decide

theorem witness_EncOctetsAreBigEndian :
    3 < 2 ^ (8 * LenClass.eight.octets - 2) ∧ classify (sinkFor 15293 2).opa = some .two ∧
      LenClass.two.octets ≤ (sinkFor 15293 2).outCap.toNat := by decide

theorem witness_EncOutputDependsOnTheValueAlone :
    let s := sinkFor 15293 2
    let s' := { inputs 15293 1 2 3 8 with cmd := 7, outWin := 4 }
    classify s.opa = some .two ∧ s'.opa = s.opa ∧ LenClass.two.octets ≤ s.outCap.toNat ∧
      LenClass.two.octets ≤ s'.outCap.toNat := by decide

theorem witness_FailedEncLeavesTheSink :
    answers (exec .enc (sinkFor 64 1)) ((sinkFor 64 1).withResults 3 0 0 0 0 0) = true := by decide

theorem witness_TagLosesNoValueBit : classify 0x3fffffffffffffff = some .eight := by decide

theorem witness_DecodeInvertsEncode :
    let s := sinkFor 15293 8
    let u := stream 3 0x7bbdff0000000000
    classify s.opa = some .two ∧ LenClass.two.octets ≤ s.outCap.toNat ∧
      answers (exec .enc s) (s.withResults 0 0 2 0 2 0x7bbd000000000000) = true ∧ LenClass.two.octets ≤ u.inRem.toNat ∧
      ∀ k < LenClass.two.octets, winByte u.inWin k = winByte 0x7bbd000000000000 k := by decide

theorem witness_FailedCommandsHaveZeroResults :
    answers (exec .dec (stream 1 0x7b00000000000000)) (finish .absent { inUsed := 1 } (stream 1 0x7b00000000000000)) = true ∧
      StatusCode.absent ≠ .ok := by decide

theorem witness_CommandsReportOnlyTheirCodes :
    StatusCode.lenOvf ∈ failureCodes .addlen ∧ decode 0x40 = .error .reservedBits := ⟨by decide, rfl⟩

theorem witness_CommandsReadOnlyTheirOperands :
    sameOperands .fromU8 (inputs 0x1ff 0 0 0 0) (inputs 0xff 1 2 3 4) ∧
      sameOperands .dec (stream 8 0x25ffffffffffffff) (inputs 1 1 8 0x2500000000000000 1) ∧
      sameOperands .enc (inputs 63 0 0 0 4) (inputs 63 1 2 3 4) := by unfold sameOperands; decide

theorem witness_ChecksHaveTheirPriority :
    decode 0x47 = .error .reservedBits ∧ (stream 0 0x4000000000000000).inRem = 0 ∧
      ((stream 1 0x4000000000000000).inRem ≠ 0 ∧
        (stream 1 0x4000000000000000).inRem.toNat < 1 <<< ((stream 1 0x4000000000000000).inWin.toNat / 2 ^ 62)) ∧
      classify (sinkFor 0x4000000000000000 0).opa = none ∧ 2 ^ 62 - 1 < (opaIs 0x4000000000000000).opa.toNat :=
  ⟨rfl, by decide, by decide, by decide, by decide⟩

theorem witness_RegisterMapIsTheTables :
    Reg.status.hostAccess = .readOnly ∧ 0x70 ≤ (0x70 : BitVec 8).toNat ∧ 0x70 ≤ (0xFF : BitVec 8).toNat := by decide

theorem witness_InputRegistersHoldWhatTheHostWrote :
    Reg.inWin.hostAccess = .readWrite ∧ Reg.opa ≠ Reg.inWin ∧
      nextHas (step (about (.wr .opa (.lit 7))))
        (fun t => decide (t.getReg .opa ≠ (about (.wr .opa (.lit 7))).getReg .opa)) = true := by decide

theorem witness_ResultRegistersChangeOnlyByCommandsAndReset :
    Reg.status.hostAccess = .readOnly ∧
      nextHas (step (about (.command .dec)))
        (fun t => decide (t.getReg .status ≠ (about (.command .dec)).getReg .status)) = true := by decide

theorem witness_OnlyWholeAlignedSlotsAreAccessed :
    (Reg.ofOffset 0x30 = none ∧ Reg.ofOffset 0x70 = none ∧ Reg.ofOffset 0xF8 = none) ∧ AccessSize.bits32 ≠ .bits64 ∧
      (0x0c : BitVec 8).toNat % 8 ≠ 0 ∧ (0x68 : BitVec 8).toNat % 8 = 0 := by decide

theorem witness_ReadsHaveNoSideEffect :
    decode ({ State.reset with cmd := 0x07 } : State).cmd = .ok .dec ∧ Reg.opb.hostAccess = .readWrite ∧ Reg.opb ≠ .cmd :=
  ⟨rfl, rfl, by decide⟩

theorem witness_CmdWriteIssuesItsCommand : decode 0x08 = .ok .enc := rfl

theorem witness_WindowAddressesAreItsOffsets : Config.coreBase + 256 ≤ Config.coreBase + 256 := Nat.le_refl _

theorem witness_WindowPacking : (7 : Nat) < 8 ∧ (State.reset).outUsed = 0 := by decide

theorem witness_TransferProtocol :
    let s := { hostBytes [0x7B, 0xBD] 0 with inUsed := 2, outUsed := 2, outWin := 0x7bbd000000000000 }.withSink
      { written := [], capacity := 2 }
    s.host.input.bytes.length - s.host.input.cursor ≤ 2 ^ 64 - 1 ∧
      s.host.input.cursor + s.inUsed.toNat ≤ s.host.input.bytes.length ∧ s.host.sink.capacity ≤ 2 ^ 64 - 1 ∧
      s.resultsLegal ∧ s.outUsed.toNat ≤ s.host.sink.capacity := by decide

theorem witness_BytesBeyondTheStreamDoNotMatter :
    (hostBytes [0x7B] 0).host.input.bytes.length - (hostBytes [0x7B] 0).host.input.cursor ≤ 2 ^ 64 - 1 := by decide

theorem witness_ResetClearsEveryRegister :
    fetchLine { about .reset with opa := 7 } = some .reset ∧ fetchLine { about .reset with opa := 8 } = some .reset := by decide

/-- The reset state whose host has just read this word and holds it in variable 0, and performs this line next. -/
def aboutWith (v : Word) (line : HostLine) : State :=
  { State.reset with host := { HostAgent.idle with program := [line], lastRead := some v, vars := [(0, v)] } }

/-- Every way to write a word to `CMD`, a command line apart, is a line the host can be about to perform. -/
theorem writesToCmd_of_each_line (w : Word) :
    writesToCmd w (aboutWith 0 (.wr .cmd (.lit w))) ∧ writesToCmd w (aboutWith w (.wr .cmd .justRead)) ∧
      writesToCmd w (aboutWith w (.wr .cmd (.var 0))) ∧ writesToCmd w (aboutWith 0 (.writeAt .bits64 0 w)) ∧
      writesToCmd w (aboutWith 0 (.busWrite .bits64 (addressOf Reg.cmd.offset) w)) :=
  ⟨.inr (.inl ⟨_, rfl, rfl⟩), .inr (.inl ⟨_, rfl, rfl⟩), .inr (.inl ⟨_, rfl, rfl⟩), .inr (.inr (.inl rfl)),
    .inr (.inr (.inr rfl))⟩

theorem witness_StepRunsTheDecodedCommand :
    writesToCmd 0x07 (about (.command .dec)) ∧ writesToCmd 0x07 (aboutWith 0x07 (.wr .cmd .justRead)) ∧
      decode 0x07 = .ok .dec ∧ decodeTableWord 64 0x07 = some .dec :=
  ⟨.inl ⟨.dec, rfl, rfl⟩, (writesToCmd_of_each_line _).2.1, rfl, by decide⟩

theorem witness_StepReportsAnIllegalWord :
    writesToCmd 0x12 (aboutWith 0 (.wr .cmd (.lit 0x12))) ∧
      writesToCmd 0x12 (aboutWith 0 (.busWrite .bits64 (addressOf Reg.cmd.offset) 0x12)) ∧ decode 0x12 = .error .badWidth :=
  ⟨(writesToCmd_of_each_line _).1, (writesToCmd_of_each_line _).2.2.2.2, rfl⟩

theorem witness_CoreIsIdleBetweenCommands :
    fetchLine State.reset = none ∧ fetchLine (about .halt) = some .halt := by decide

theorem witness_StepsKeepTheStateLegal :
    (about (.command .enc)).legal ∧ answers (step (about (.command .enc)))
      ({ about (.command .enc) with cmd := 0x08 }.nextLine.withResults 3 0 0 0 0 0) = true := by decide

end Sys2Proof.Tests
end

/-! PROOFS. The registers: the map, the accesses, what a command and a step keep, the ranges of the results (10_state.md). -/

namespace Sys2Proof.Machine

/-! ### The register map -/

/-- The offsets 10_state.md R20 leaves without a register are no register's offset. -/
theorem offset_mapped (r : Reg) : r.offset ≠ 0x30 ∧ r.offset ≠ 0x38 ∧ r.offset.toNat < 0x70 := by
  cases r <;> decide

theorem ofOffset_unmapped {off : BitVec 8} (h : off = 0x30 ∨ off = 0x38 ∨ 0x70 ≤ off.toNat) : Reg.ofOffset off = none := by
  cases hr : Reg.ofOffset off with
  | none => rfl
  | some r =>
    obtain ⟨h30, h38, hlt⟩ := offset_mapped r
    rw [offset_of_ofOffset hr] at h
    rcases h with h | h | h
    · exact absurd h h30
    · exact absurd h h38
    · omega

/-- A register the host only reads is none that it writes. -/
theorem ne_of_readOnly_of_readWrite {q r : Reg} (hq : q.hostAccess = .readOnly) (hr : r.hostAccess = .readWrite) : q ≠ r := by
  rintro rfl
  rw [hr] at hq
  cases hq

@[simp] theorem getReg_reset (r : Reg) : State.reset.getReg r = 0 := by
  cases r <;> rfl

/-! ### Host accesses of one slot -/

theorem hostWrite_cmd (word : Word) (s : State) : hostWrite Reg.cmd.offset word s = issueCommand word s := if_pos rfl

/-- A host write anywhere but at `CMD` only stores. -/
theorem hostWrite_of_ne_cmd {r : Reg} (v : Word) (s : State) (h : r ≠ .cmd) :
    hostWrite r.offset v s = .next (s.storeOffset r.offset v) := if_neg fun ho => h (offset_injective ho)

theorem hostWrite_readWrite {r : Reg} (v : Word) (s : State) (hr : r.hostAccess = .readWrite) (hc : r ≠ .cmd) :
    hostWrite r.offset v s = .next (s.setReg r v) := by
  rw [hostWrite_of_ne_cmd v s hc, storeOffset_readWrite s v hr]

theorem hostWrite_readOnly {r : Reg} (v : Word) (s : State) (hr : r.hostAccess = .readOnly) :
    hostWrite r.offset v s = .next s := by
  rw [hostWrite_of_ne_cmd v s (ne_of_readOnly_of_readWrite hr rfl), storeOffset_readOnly s v hr]

theorem hostWrite_unmapped {off : BitVec 8} (v : Word) (s : State) (h : Reg.ofOffset off = none) :
    hostWrite off v s = .next s := by
  have hc : off ≠ Reg.cmd.offset := by
    rintro rfl
    rw [ofOffset_offset] at h
    cases h
  simp [hostWrite, hc, State.storeOffset, h]

theorem readOffset_unmapped {off : BitVec 8} (s : State) (h : Reg.ofOffset off = none) : s.readOffset off = 0 := by
  simp [State.readOffset, h]

theorem hostRead_offset (r : Reg) (s : State) :
    hostRead r.offset s = .next { s with host := { s.host with lastRead := some (s.getReg r) } } := by
  rw [hostRead, readOffset_offset]

theorem access_refused {sz : AccessSize} {off : BitVec 8} (v : Word) (s : State) (h : ¬(sz = .bits64 ∧ off.toNat % 8 = 0)) :
    (∃ r, readAt sz off s = .refused r) ∧ ∃ r, writeAt sz off v s = .refused r := by
  obtain ⟨r, hr⟩ := Option.ne_none_iff_exists'.mp (mt (accessRefusal_eq_none_iff sz off).mp h)
  exact ⟨⟨r, by simp only [readAt, hr]⟩, ⟨r, by simp only [writeAt, hr]⟩⟩

theorem access_aligned {off : BitVec 8} (v : Word) (s : State) (h : off.toNat % 8 = 0) :
    readAt .bits64 off s = hostRead off s ∧ writeAt .bits64 off v s = hostWrite off v s := by
  have hr := (accessRefusal_eq_none_iff .bits64 off).mpr ⟨rfl, h⟩
  exact ⟨by simp only [readAt, hr], by simp only [writeAt, hr]⟩

/-- Settles O41. The map and its inverse agree by the laws of `ofOffset`; an offset past the table is no register's. -/
theorem registerMapIsTheTables : Obligations.RegisterMapIsTheTables := by
  unfold Obligations.RegisterMapIsTheTables
  refine ⟨fun off r => ⟨offset_of_ofOffset, ?_⟩, by decide, by decide, getReg_reset,
    fun r v s hr => hostWrite_readOnly v s hr, fun off => ofOffset_unmapped⟩
  rintro rfl
  exact ofOffset_offset r

/-- Settles O44. An access is refused exactly when `accessRefusal` names a reason. -/
theorem onlyWholeAlignedSlotsAreAccessed : Obligations.OnlyWholeAlignedSlotsAreAccessed := by
  unfold Obligations.OnlyWholeAlignedSlotsAreAccessed
  intro off v s
  refine ⟨fun h => ⟨hostWrite_unmapped v s h, ?_⟩, fun sz hsz => access_refused v s fun hw => hsz hw.1,
    fun ha => access_refused v s fun hw => ha hw.2, access_aligned v s⟩
  rw [hostRead, readOffset_unmapped s h]

/-! ### Commands -/

theorem issueCommand_of_decode {word : Word} {i : Instr} (s : State) (h : decode word = .ok i) :
    issueCommand word s = exec i { s with cmd := word } := by
  simp only [issueCommand, h]
  rfl

theorem exec_keeps_input (i : Instr) (s : State) :
    ∃ t, exec i s = .next t ∧ ∀ q, q.hostAccess = .readWrite → t.getReg q = s.getReg q := by
  obtain ⟨code, r, h⟩ := exec_finishes i s
  exact ⟨_, h, fun q hq => finish_keeps_input code r s hq⟩

/-- A write to `CMD` completes with the word in `CMD`, and keeps every other input register. -/
theorem issueCommand_inputs (word : Word) (s : State) :
    ∃ t, issueCommand word s = .next t ∧ ∀ q, q.hostAccess = .readWrite → t.getReg q = (s.setReg .cmd word).getReg q := by
  obtain ⟨code, r, h⟩ := issueCommand_finishes word s
  exact ⟨_, h, fun q hq => finish_keeps_input code r _ hq⟩

/-- A write to any input register, `CMD` included, completes and leaves the input registers as the store alone would. -/
theorem hostWrite_inputs {r : Reg} (v : Word) (s : State) (hr : r.hostAccess = .readWrite) :
    ∃ t, hostWrite r.offset v s = .next t ∧ ∀ q, q.hostAccess = .readWrite → t.getReg q = (s.setReg r v).getReg q := by
  by_cases hc : r = .cmd
  · subst hc
    rw [hostWrite_cmd]
    exact issueCommand_inputs v s
  · exact ⟨_, hostWrite_readWrite v s hr hc, fun _ _ => rfl⟩

/-- DEC on an empty stream (43_decoder.md R141). -/
theorem exec_dec_of_empty {s : State} (h : s.inRem = 0) : exec .dec s = .next (s.withResults 1 0 0 0 0 0) := by
  have hrem : inRemNat s = 0 := by rw [inRemNat, h]; rfl
  simp only [exec, execDec, hrem, if_true]
  rfl

/-- ENC with less room than the value's class needs (44_encoder.md R162). -/
theorem exec_enc_of_noSpace {s : State} {c : LenClass} (hc : classify s.opa = some c) (h : s.outCap.toNat < c.octets) :
    exec .enc s = .next (s.withResults 3 0 0 0 0 0) := by
  simp only [exec, execEnc, hc, outCapNat, h, if_true]
  rfl

/-- Settles O46. The write is the command by the decoder, and the read after it finds the register at its own offset. -/
theorem cmdWriteIssuesItsCommand : Obligations.CmdWriteIssuesItsCommand := by
  unfold Obligations.CmdWriteIssuesItsCommand
  intro word i s h
  obtain ⟨code, r, he⟩ := exec_finishes i { s with cmd := word }
  exact ⟨by rw [hostWrite_cmd, issueCommand_of_decode s h], _, he, fun q => hostRead_offset q _⟩

/-- Settles O52. After reset the stream is empty, and 0 needs one octet where there is room for none. -/
theorem firstCommandsAfterReset : Obligations.FirstCommandsAfterReset := by
  unfold Obligations.FirstCommandsAfterReset
  exact ⟨getReg_reset, rfl, exec_dec_of_empty rfl, exec_enc_of_noSpace (c := .one) rfl (by decide)⟩

/-! ### The ranges of the results -/

/-- The ranges 10_state.md R27 gives the results a command ends with. -/
def Results.legal (r : Results) : Prop :=
  lengthLegal r.len ∧ lengthLegal r.inUsed ∧ lengthLegal r.outUsed ∧ ∀ k < 8, r.outUsed.toNat ≤ k → winByte r.outWin k = 0

theorem statusWord_le_six (code : StatusCode) : code.word.toNat ≤ 6 := by
  cases code <;> decide

/-- `finish` with legal results leaves the result registers legal. -/
theorem finish_resultsLegal (code : StatusCode) {r : Results} (s : State) (h : r.legal) : (finish code r s).resultsLegal :=
  ⟨statusWord_le_six code, h⟩

theorem lengthLegal_word (c : LenClass) : lengthLegal c.word := by
  cases c <;> decide

theorem lengthLegal_lenResult (c : Option LenClass) : lengthLegal (lenResult c) := by
  cases c with
  | none => exact .inl rfl
  | some c => exact lengthLegal_word c

theorem lengthLegal_toNat_mem {w : Word} (h : lengthLegal w) : w.toNat ∈ [0, 1, 2, 4, 8] := by
  rcases h with rfl | rfl | rfl | rfl | rfl <;> decide

@[simp] theorem winByte_zero (k : Nat) : winByte 0 k = 0 := by
  simp [winByte]

/-- Results that name no output are legal when their lengths are. -/
theorem Results.legal_of_noOutput {res len inUsed : Word} (hl : lengthLegal len) (hi : lengthLegal inUsed) :
    ({ res := res, len := len, inUsed := inUsed } : Results).legal :=
  ⟨hl, hi, .inl rfl, fun k _ _ => winByte_zero k⟩

/-- Results that name a value alone, or nothing, are legal. -/
theorem Results.legal_of_res (v : Word) : ({ res := v } : Results).legal :=
  Results.legal_of_noOutput (.inl rfl) (.inl rfl)

/-- The window ENC writes is 0 past the octets of the value's class (20_memory.md R42). -/
theorem Results.legal_of_encoding (c : LenClass) (x : Nat) :
    ({ len := c.word, outUsed := c.word, outWin := packWindow (wireOctets c x) } : Results).legal := by
  refine ⟨lengthLegal_word c, .inl rfl, lengthLegal_word c, fun k hk hc => ?_⟩
  have hnot : ¬k < c.octets := Nat.not_lt.mpr (word_toNat c ▸ hc)
  rw [winByte_packWindow _ hk, wireOctets_getD, if_neg hnot]

theorem finishInRange_finishes_legal (n : Nat) {r : Results} (s : State) (h : r.legal) :
    ∃ code q, finishInRange n r s = .next (finish code q s) ∧ q.legal := by
  unfold finishInRange
  split
  · exact ⟨_, _, rfl, Results.legal_of_res 0⟩
  · exact ⟨_, _, rfl, h⟩

/-- Every command ends with one `finish` of legal results. -/
theorem exec_finishes_legal (i : Instr) (s : State) : ∃ code r, exec i s = .next (finish code r s) ∧ r.legal := by
  cases i with
  | fromU8 => exact ⟨_, _, rfl, Results.legal_of_res _⟩
  | fromU16 => exact ⟨_, _, rfl, Results.legal_of_res _⟩
  | fromU32 => exact ⟨_, _, rfl, Results.legal_of_res _⟩
  | fromU64 => exact finishInRange_finishes_legal _ s (Results.legal_of_res _)
  | size => exact finishInRange_finishes_legal _ s (Results.legal_of_noOutput (lengthLegal_lenResult _) (.inl rfl))
  | toVal => exact finishInRange_finishes_legal _ s (Results.legal_of_res _)
  | add =>
    simp only [exec, execAdd]
    split
    · exact ⟨_, _, rfl, Results.legal_of_res 0⟩
    · exact finishInRange_finishes_legal _ s (Results.legal_of_res _)
  | addlen =>
    simp only [exec, execAddlen]
    split
    · exact ⟨_, _, rfl, Results.legal_of_res 0⟩
    · split
      · exact ⟨_, _, rfl, Results.legal_of_res 0⟩
      · exact ⟨_, _, rfl, Results.legal_of_res _⟩
  | cls => exact ⟨_, _, rfl, Results.legal_of_noOutput (lengthLegal_lenResult _) (.inl rfl)⟩
  | dec =>
    simp only [exec, execDec]
    split
    · exact ⟨_, _, rfl, Results.legal_of_res 0⟩
    · split
      · exact ⟨_, _, rfl, Results.legal_of_noOutput (.inl rfl) (.inr (.inl rfl))⟩
      · exact ⟨_, _, rfl, Results.legal_of_noOutput (lengthLegal_word _) (lengthLegal_word _)⟩
  | enc =>
    simp only [exec, execEnc]
    split
    · exact ⟨_, _, rfl, Results.legal_of_res 0⟩
    · split
      · exact ⟨_, _, rfl, Results.legal_of_res 0⟩
      · exact ⟨_, _, rfl, Results.legal_of_encoding _ _⟩

/-- After any write to `CMD`, of a legal word or not, the result registers are in their ranges (10_state.md R27). -/
theorem issueCommand_resultsLegal (word : Word) (s : State) : ∃ t, issueCommand word s = .next t ∧ t.resultsLegal := by
  unfold issueCommand
  dsimp only
  split
  · rename_i i _
    obtain ⟨code, r, he, hr⟩ := exec_finishes_legal i (s.setReg .cmd word)
    exact ⟨_, he, finish_resultsLegal code _ hr⟩
  · exact ⟨_, rfl, finish_resultsLegal .illegal _ (Results.legal_of_res 0)⟩

/-! ### What a host line changes -/

theorem HostOnly.getReg {s t : State} (h : HostOnly s t) (r : Reg) : t.getReg r = s.getReg r := by
  obtain ⟨_, rfl, _⟩ := h
  exact getReg_withHost s _ r

/-- The register a store changes, beside the host's going to its next line, is the one it stores to. -/
theorem eq_of_getReg_nextLine_setReg_ne {s : State} {q r : Reg} {v : Word} (h : (s.nextLine.setReg q v).getReg r ≠ s.getReg r) :
    r = q := by
  by_contra hne
  exact h (by rw [getReg_setReg_of_ne _ _ hne, getReg_nextLine])

/-- A line that changes an input register writes it or is reset. -/
theorem LineEffect.mayWriteInput {line : HostLine} {s t : State} {r : Reg} (e : LineEffect line s t)
    (hr : r.hostAccess = .readWrite) (hne : t.getReg r ≠ s.getReg r) : line.mayWriteInput r = true := by
  cases e with
  | issues word _ hc h =>
    obtain ⟨u, hu, hin⟩ := issueCommand_inputs word s.nextLine
    obtain rfl : u = t := Host.Outcome.next.inj (hu.symm.trans h)
    rw [hin r hr] at hne
    rwa [eq_of_getReg_nextLine_setReg_ne hne]
  | stores q v _ _ hl h =>
    subst h
    rwa [eq_of_getReg_nextLine_setReg_ne hne]
  | presents pad hl rem win h =>
    subst hl h
    by_cases hw : r = .inWin
    · subst hw; rfl
    · rw [getReg_setReg_of_ne _ _ hw] at hne
      rw [eq_of_getReg_nextLine_setReg_ne hne]
      rfl
  | resets hl _ => rw [hl]; rfl
  | host h => exact absurd (h.getReg r) hne

/-- A line that changes a result register writes `CMD` or is reset. -/
theorem LineEffect.mayChangeResults {line : HostLine} {s t : State} {r : Reg} (e : LineEffect line s t)
    (hr : r.hostAccess = .readOnly) (hne : t.getReg r ≠ s.getReg r) : line.mayChangeResults = true := by
  cases e with
  | issues _ hl _ _ => exact hl
  | stores q v hq _ _ h =>
    subst h
    exact absurd (eq_of_getReg_nextLine_setReg_ne hne) (ne_of_readOnly_of_readWrite hr hq)
  | presents pad _ rem win h =>
    subst h
    rw [getReg_setReg_of_ne _ _ (ne_of_readOnly_of_readWrite hr rfl)] at hne
    exact absurd (eq_of_getReg_nextLine_setReg_ne hne) (ne_of_readOnly_of_readWrite hr rfl)
  | resets hl _ => rw [hl]; rfl
  | host h => exact absurd (h.getReg r) hne

/-- A step that changes a register performs a line. -/
theorem step_changes_by_line {s t : State} {r : Reg} (h : step s = .next t) (hne : t.getReg r ≠ s.getReg r) :
    ∃ line, fetchLine s = some line ∧ LineEffect line s t := by
  rcases step_next h with ⟨_, rfl⟩ | hl
  · exact absurd rfl hne
  · exact hl

/-- Settles O42. A command keeps the inputs because it ends in one `finish`; a step because of what its line can do. -/
theorem inputRegistersHoldWhatTheHostWrote : Obligations.InputRegistersHoldWhatTheHostWrote := by
  unfold Obligations.InputRegistersHoldWhatTheHostWrote
  refine ⟨fun r v s hr => ?_, exec_keeps_input, fun s t r hr h hne => ?_⟩
  · obtain ⟨t, ht, hin⟩ := hostWrite_inputs v s hr
    refine ⟨t, ht, ?_, fun q hq hne => ?_⟩
    · rw [readOffset_offset, hin r hr, getReg_setReg_same]
    · rw [hin q hq, getReg_setReg_of_ne s v hne]
  · obtain ⟨line, hl, e⟩ := step_changes_by_line h hne
    exact ⟨line, hl, e.mayWriteInput hr hne⟩

/-- Settles O43. Every `finish` is given legal results, and only a write to `CMD` or reset reaches a result register. -/
theorem resultRegistersChangeOnlyByCommandsAndReset : Obligations.ResultRegistersChangeOnlyByCommandsAndReset := by
  unfold Obligations.ResultRegistersChangeOnlyByCommandsAndReset
  refine ⟨fun s t r hr h hne => ?_, fun r v s hr => hostWrite_readOnly v s hr, fun word s => ?_⟩
  · obtain ⟨line, hl, e⟩ := step_changes_by_line h hne
    exact ⟨line, hl, e.mayChangeResults hr hne⟩
  · obtain ⟨t, ht, _, hlen, hin, hout, hwin⟩ := issueCommand_resultsLegal word s
    exact ⟨t, ht, lengthLegal_toNat_mem hlen, lengthLegal_toNat_mem hin, lengthLegal_toNat_mem hout, hwin⟩

end Sys2Proof.Machine

/-! PROOFS. The host's accesses, the byte windows and what DEC reads of a stream (20_memory.md). -/

namespace Sys2Proof.Machine

/-! ### What DEC reads -/

/-- The tag that selects the class lies in byte 0. -/
theorem firstClass_congr {v w : Word} (h : winByte v 0 = winByte w 0) : firstClass v = firstClass w := by
  rw [firstClass, firstClass, h]

/-- The decoded value comes from the first `L` bytes. -/
theorem wireValue_congr {v w : Word} {c : LenClass} (h : ∀ k < c.octets, winByte v k = winByte w k) :
    wireValue v c = wireValue w c := by
  unfold wireValue
  rw [h 0 (octets_pos c)]
  refine List.foldl_ext _ _ _ fun x k hk => ?_
  have hlt : k < c.octets - 1 := List.mem_range.mp hk
  rw [h (k + 1) (by omega)]

theorem one_le_inRem {s : State} (h : s.inRem ≠ 0) : 1 ≤ s.inRem.toNat :=
  Nat.one_le_iff_ne_zero.mpr fun h0 => h (BitVec.eq_of_toNat_eq h0)

/-- DEC on a stream that ends within its first encoding (43_decoder.md R142). -/
theorem exec_dec_of_truncated {s : State} (h0 : s.inRem ≠ 0) (h : s.inRem.toNat < (firstClass s.inWin).octets) :
    exec .dec s = .next (s.withResults 1 0 0 1 0 0) := by
  have hrem : ¬inRemNat s = 0 := Nat.one_le_iff_ne_zero.mp (one_le_inRem h0)
  simp only [exec, execDec, if_neg hrem]
  exact if_pos h

/-- DEC on a stream that holds its whole first encoding (43_decoder.md R143). -/
theorem exec_dec_of_whole {s : State} (h : (firstClass s.inWin).octets ≤ s.inRem.toNat) :
    exec .dec s =
      .next (s.withResults 0 (wireValue s.inWin (firstClass s.inWin)) (firstClass s.inWin).word (firstClass s.inWin).word 0 0) := by
  have hrem : ¬inRemNat s = 0 := Nat.one_le_iff_ne_zero.mp ((octets_pos _).trans_le h)
  simp only [exec, execDec, if_neg hrem]
  exact if_neg (Nat.not_lt.mpr h)

/-- The results of DEC depend only on `IN_REM` and the bytes it reads: none of an empty stream, byte 0 of a truncated one, and
the first `L` otherwise (43_decoder.md R146). -/
theorem exec_dec_congr {s s' : State} (hrem : s'.inRem = s.inRem)
    (htag : 1 ≤ s.inRem.toNat → winByte s'.inWin 0 = winByte s.inWin 0)
    (hall : (firstClass s.inWin).octets ≤ s.inRem.toNat →
      ∀ k < (firstClass s.inWin).octets, winByte s'.inWin k = winByte s.inWin k) :
    ∃ status res len inUsed, exec .dec s = .next (s.withResults status res len inUsed 0 0) ∧
      exec .dec s' = .next (s'.withResults status res len inUsed 0 0) := by
  by_cases hempty : s.inRem = 0
  · exact ⟨_, _, _, _, exec_dec_of_empty hempty, exec_dec_of_empty (hrem.trans hempty)⟩
  have hclass : firstClass s'.inWin = firstClass s.inWin := firstClass_congr (htag (one_le_inRem hempty))
  by_cases hshort : s.inRem.toNat < (firstClass s.inWin).octets
  · refine ⟨_, _, _, _, exec_dec_of_truncated hempty hshort, exec_dec_of_truncated ?_ ?_⟩
    · rwa [hrem]
    · rwa [hrem, hclass]
  · have hwhole := Nat.not_lt.mp hshort
    refine ⟨_, _, _, _, exec_dec_of_whole hwhole, ?_⟩
    rw [exec_dec_of_whole (by rwa [hrem, hclass]), hclass, wireValue_congr (hall hwhole)]

/-! ### The window the host presents -/

/-- The state with the host's stream presented, its choice beyond the stream being the bytes of `pad`. -/
def State.presented (s : State) (pad : Word) : State :=
  { s with inRem := BitVec.ofNat 64 s.host.input.remaining, inWin := s.host.input.window pad }

/-- `in.present` of a stream whose remaining length fits `IN_REM`. -/
theorem inPresent_of_fits {s : State} (pad : Word) (h : s.host.input.remaining ≤ Config.nativeMax) :
    inPresent pad s = .next (s.presented pad) :=
  if_neg (Nat.not_lt.mpr h)

/-- A remaining length that fits `IN_REM` is the number `IN_REM` then holds. -/
theorem presented_inRem_toNat {s : State} (pad : Word) (h : s.host.input.remaining ≤ Config.nativeMax) :
    (s.presented pad).inRem.toNat = s.host.input.remaining :=
  (BitVec.toNat_ofNat _ 64).trans (Nat.mod_eq_of_lt (Nat.lt_of_le_of_lt h (by decide)))

/-- The presented window holds the stream's next bytes at every index the stream reaches (20_memory.md R46). -/
theorem some_winByte_window (i : InStream) (pad : Word) {k : Nat} (h8 : k < 8) (h : k < i.remaining) :
    some (winByte (i.window pad) k) = i.bytes[i.cursor + k]? := by
  have hin : i.cursor + k < i.bytes.length := by
    rw [InStream.remaining] at h
    omega
  rw [InStream.window, winByte_packWindow _ h8]
  simp [List.getD_eq_getElem?_getD, Config.windowBytes, h8, hin]

/-- Within the stream the presented bytes are the same whatever the host's choice beyond it (20_memory.md R47). -/
theorem winByte_window_congr (i : InStream) (p q : Word) {k : Nat} (h8 : k < 8) (h : k < i.remaining) :
    winByte (i.window p) k = winByte (i.window q) k :=
  Option.some.inj ((some_winByte_window i p h8 h).trans (some_winByte_window i q h8 h).symm)

/-- Settles O50. DEC reads only bytes the stream reaches, and those do not depend on the host's choice beyond it. -/
theorem bytesBeyondTheStreamDoNotMatter : Obligations.BytesBeyondTheStreamDoNotMatter := by
  unfold Obligations.BytesBeyondTheStreamDoNotMatter
  intro s p q hfits
  have hsame {k : Nat} (h8 : k < 8) (hk : k < (s.presented p).inRem.toNat) :
      winByte (s.presented q).inWin k = winByte (s.presented p).inWin k :=
    winByte_window_congr _ q p h8 (presented_inRem_toNat p hfits ▸ hk)
  obtain ⟨status, res, len, inUsed, hp, hq⟩ := exec_dec_congr (s := s.presented p) (s' := s.presented q) rfl
    (hsame (by decide)) fun hL k hk => hsame (hk.trans_le (octets_le_eight _)) (hk.trans_le hL)
  exact ⟨_, _, _, inPresent_of_fits p hfits, inPresent_of_fits q hfits, hp, hq⟩

/-! ### Host reads -/

/-- What a read returns is CORE's, whatever the host is. -/
theorem HostOnly.readOffset {s t : State} (h : HostOnly s t) (off : BitVec 8) : t.readOffset off = s.readOffset off := by
  unfold State.readOffset
  cases Reg.ofOffset off with
  | none => rfl
  | some r => exact h.getReg r

/-- Reading a slot again returns the same value and so the same state. -/
theorem hostRead_again {off : BitVec 8} {s t : State} (h : hostRead off s = .next t) : hostRead off t = .next t := by
  have hsame : t.readOffset off = s.readOffset off := (hostRead_next h).readOffset off
  rw [hostRead, hsame]
  cases h
  rfl

/-- Settles O45. A read changes the host alone; a write is a command at `CMD` and a store at any other input register. -/
theorem readsHaveNoSideEffect : Obligations.ReadsHaveNoSideEffect := by
  unfold Obligations.ReadsHaveNoSideEffect
  refine ⟨fun off s => ⟨_, rfl, rfl, getReg_withHost s _, hostRead_again rfl⟩, fun s i h => ?_,
    fun r v s hr hc => hostWrite_readWrite v s hr hc⟩
  rw [hostWrite_cmd, issueCommand_of_decode s h]

/-! ### The output window -/

/-- With no byte produced, a window that is 0 from `OUT_USED` on is 0 throughout. -/
theorem outWin_eq_zero {s : State} (h : s.resultsLegal) (h0 : s.outUsed = 0) : s.outWin = 0 := by
  obtain ⟨_, _, _, _, hbeyond⟩ := h
  refine winByte_ext fun k hk => ?_
  rw [winByte_zero, hbeyond k hk (by simp [h0])]

/-- Settles O48. The window bytes are read as numbers; the rest is in the ranges every command ends with. -/
theorem windowPacking : Obligations.WindowPacking := by
  unfold Obligations.WindowPacking
  refine ⟨fun s k hk => ⟨winByte_toNat s.inWin hk, winByte_toNat s.outWin hk⟩, fun i s => ?_⟩
  obtain ⟨code, r, he, hr⟩ := exec_finishes_legal i s
  have ⟨_, _, _, hbeyond⟩ := hr
  exact ⟨_, he, hbeyond, outWin_eq_zero (finish_resultsLegal code s hr)⟩

end Sys2Proof.Machine

/-! PROOFS. Command words, the assembler, the wire format and the operands of the commands (30_encoding.md). -/

namespace Sys2Proof.Machine

/-! ### Command words -/

theorem cmdFields_rsv_eq_zero_iff (word : Word) : (cmdFields word).rsv = 0 ↔ word.toNat / 64 = 0 := by
  have hlt : word.toNat / 64 < 2 ^ 58 := by have := word.isLt; omega
  rw [← BitVec.toNat_inj, cmdFields, BitVec.extractLsb'_toNat, Nat.shiftRight_eq_div_pow, Nat.mod_eq_of_lt hlt]
  rfl

theorem cmdFields_w_toNat (word : Word) : (cmdFields word).w.toNat = word.toNat / 16 % 4 := by
  simp [cmdFields, BitVec.extractLsb'_toNat, Nat.shiftRight_eq_div_pow]

theorem cmdFields_op_toNat (word : Word) : (cmdFields word).op.toNat = word.toNat % 16 := by
  simp [cmdFields, BitVec.extractLsb'_toNat]

/-- The row a width and an operation select is the one with both in its word. -/
theorem decodeOp_eq_ok_iff (op : BitVec 4) (w : BitVec 2) (i : Instr) :
    decodeOp op w = .ok i ↔ w = (cmdFields (encode i)).w ∧ op = (cmdFields (encode i)).op := by
  revert op w
  cases i <;> decide

theorem decode_of_rsv_zero {word : Word} (h : (cmdFields word).rsv = 0) :
    decode word = decodeOp (cmdFields word).op (cmdFields word).w := if_pos h

theorem decode_of_rsv_ne_zero {word : Word} (h : (cmdFields word).rsv ≠ 0) : decode word = .error .reservedBits := if_neg h

theorem decode_eq_ok_iff (word : Word) (i : Instr) :
    decode word = .ok i ↔
      word.toNat / 64 = 0 ∧ word.toNat / 16 % 4 = (encode i).toNat / 16 % 4 ∧ word.toNat % 16 = (encode i).toNat % 16 := by
  rw [← cmdFields_rsv_eq_zero_iff, ← cmdFields_w_toNat, ← cmdFields_w_toNat, ← cmdFields_op_toNat, ← cmdFields_op_toNat,
    BitVec.toNat_inj, BitVec.toNat_inj, ← decodeOp_eq_ok_iff]
  by_cases h : (cmdFields word).rsv = 0
  · rw [decode_of_rsv_zero h, and_iff_right h]
  · rw [decode_of_rsv_ne_zero h]
    exact ⟨nofun, fun hok => absurd hok.1 h⟩

/-- Settles O2. The fields are numbers, and the four-bit and two-bit ones are checked row by row. -/
theorem commandWordSelectsItsRow : Obligations.CommandWordSelectsItsRow := by
  unfold Obligations.CommandWordSelectsItsRow
  exact ⟨rfl, decode_eq_ok_iff⟩

theorem encode_toNat_lt (i : Instr) : (encode i).toNat < 64 := by
  cases i <;> decide

/-- A legal word is the command word of its row, and of no other. -/
theorem eq_encode_iff_decode (word : Word) (i : Instr) : word = encode i ↔ decode word = .ok i := by
  have hlt := encode_toNat_lt i
  rw [decode_eq_ok_iff, ← BitVec.toNat_inj]
  omega

/-- Beside a zero `RSV`, a word decodes when `OP` names an operation and `W` is one it takes. -/
theorem decodeOp_isOk (op : BitVec 4) (w : BitVec 2) :
    (decodeOp op w).isOk = (CmdFields.opOk ⟨0, w, op⟩ && CmdFields.widthOk ⟨0, w, op⟩) := by
  revert op w
  decide

/-- The decoder accepts the words that pass the three checks of 30_encoding.md R63. -/
theorem decode_isOk (word : Word) : (decode word).isOk = (cmdFields word).wf := by
  by_cases h : (cmdFields word).rsv = 0
  · rw [decode_of_rsv_zero h, decodeOp_isOk, CmdFields.wf, CmdFields.rsvOk, decide_eq_true h, Bool.true_and]
    rfl
  · rw [decode_of_rsv_ne_zero h, CmdFields.wf, CmdFields.rsvOk, decide_eq_false h]
    rfl

theorem cmdFields_wf_iff (word : Word) :
    (cmdFields word).wf = true ↔
      ¬(word.toNat / 64 ≠ 0 ∨ word.toNat % 16 = 0 ∨ 9 ≤ word.toNat % 16 ∨
        word.toNat / 16 % 4 ≠ 0 ∧ word.toNat % 16 ≠ 1) := by
  have hrsv : (cmdFields word).rsvOk = true ↔ word.toNat / 64 = 0 :=
    decide_eq_true_iff.trans (cmdFields_rsv_eq_zero_iff word)
  have hop : (cmdFields word).opOk = true ↔ 1 ≤ word.toNat % 16 ∧ word.toNat % 16 ≤ 8 := by
    simp [CmdFields.opOk, cmdFields_op_toNat]
  have hwidth : (cmdFields word).widthOk = true ↔ word.toNat / 16 % 4 = 0 ∨ word.toNat % 16 = 1 := by
    simp [CmdFields.widthOk, ← BitVec.toNat_inj, cmdFields_w_toNat, cmdFields_op_toNat]
  rw [CmdFields.wf, Bool.and_eq_true, Bool.and_eq_true, hrsv, hop, hwidth]
  omega

theorem exists_decode_of_wf {word : Word} (h : (cmdFields word).wf = true) : ∃ i, decode word = .ok i := by
  rw [← decode_isOk] at h
  cases hd : decode word with
  | ok i => exact ⟨i, rfl⟩
  | error e => rw [hd] at h; cases h

theorem exists_error_of_not_wf {word : Word} (h : ¬(cmdFields word).wf = true) : ∃ e, decode word = .error e := by
  rw [← decode_isOk] at h
  cases hd : decode word with
  | ok i => rw [hd] at h; exact absurd rfl h
  | error e => exact ⟨e, rfl⟩

/-- An illegal word performs no operation (30_encoding.md R63). -/
theorem issueCommand_of_error {word : Word} {e : IllegalWord} (s : State) (h : decode word = .error e) :
    issueCommand word s = .next ({ s with cmd := word }.withResults 6 0 0 0 0 0) := by
  simp only [issueCommand, h]
  rfl

/-- Settles O3. The three checks, as numbers, are the decoder's; a word it accepts is its row's. -/
theorem illegalWordsAreTheReservedOnes : Obligations.IllegalWordsAreTheReservedOnes := by
  unfold Obligations.IllegalWordsAreTheReservedOnes
  intro word
  constructor
  · intro hbad
    obtain ⟨e, he⟩ := exists_error_of_not_wf fun hwf => (cmdFields_wf_iff word).mp hwf hbad
    exact ⟨⟨e, he⟩, fun s => issueCommand_of_error s he⟩
  · intro hgood
    obtain ⟨i, hi⟩ := exists_decode_of_wf ((cmdFields_wf_iff word).mpr hgood)
    refine ⟨i, hi, fun j => ?_⟩
    rw [eq_encode_iff_decode, hi, Except.ok.injEq, eq_comm]

/-! ### The assembler -/

/-- Settles O58. Each row of 30_encoding.md R67 is an arm of `Pseudo.expand`; each other spelling is in the assembler's list. -/
theorem pseudoInstructionsExpand : Obligations.PseudoInstructionsExpand := by
  unfold Obligations.PseudoInstructionsExpand
  refine ⟨rfl, rfl, rfl, rfl, rfl, rfl, fun v => ?_, fun a b => ?_, fun pad => rfl⟩
  · exact ⟨rfl, rfl, rfl, rfl, rfl, rfl, rfl, rfl, rfl⟩
  · exact ⟨rfl, rfl, rfl⟩

/-! ### The narrow operands -/

/-- A narrow operand is the low bits of `OPA`; the others are ignored (30_encoding.md R64). -/
theorem opaNarrow_eq_ofNat (w : Nat) (s : State) : opaNarrow w s = BitVec.ofNat 64 (s.opa.toNat % 2 ^ w) := by
  apply BitVec.eq_of_toNat_eq
  rw [opaNarrow, BitVec.toNat_setWidth, BitVec.extractLsb'_toNat, Nat.shiftRight_zero, BitVec.toNat_ofNat]

/-- Settles O6. Each narrow FROM ends with its operand, which is the low bits. -/
theorem narrowFromTakesTheLowBits : Obligations.NarrowFromTakesTheLowBits := by
  unfold Obligations.NarrowFromTakesTheLowBits
  intro s
  simp only [← opaNarrow_eq_ofNat]
  exact ⟨rfl, rfl, rfl⟩

/-! ### Decoding -/

/-- DEC on a stream that ends before its first encoding does, empty or truncated. -/
theorem exec_dec_of_short {s : State} (h : s.inRem.toNat < (firstClass s.inWin).octets) :
    ∃ used, exec .dec s = .next (s.withResults 1 0 0 used 0 0) := by
  by_cases h0 : s.inRem = 0
  · exact ⟨_, exec_dec_of_empty h0⟩
  · exact ⟨_, exec_dec_of_truncated h0 h⟩

/-- Settles O23. Whatever the tag, the stream holds the whole first encoding or it does not. -/
theorem truncationIsTheOnlyDecodeFailure : Obligations.TruncationIsTheOnlyDecodeFailure := by
  unfold Obligations.TruncationIsTheOnlyDecodeFailure
  intro s
  rw [← firstClass_octets]
  by_cases h : (firstClass s.inWin).octets ≤ s.inRem.toNat
  · exact ⟨_, exec_dec_of_whole h, fun _ => rfl, fun hlt => absurd h (Nat.not_le.mpr hlt)⟩
  · obtain ⟨used, he⟩ := exec_dec_of_short (Nat.not_le.mp h)
    exact ⟨_, he, fun hle => absurd hle h, fun _ => rfl⟩

theorem usableBits_le (c : LenClass) : c.usableBits ≤ 62 := by
  cases c <;> decide

/-- The decoder keeps only the usable bits of the class. -/
theorem wireValue_toNat_lt (win : Word) (c : LenClass) : (wireValue win c).toNat < 2 ^ c.usableBits := by
  rw [wireValue_eq_mod]
  exact Nat.mod_lt _ (Nat.two_pow_pos _)

/-- Settles O24. The value has the usable bits of the class whose octets `LEN` reports, and no class has more than 62. -/
theorem decodedValuesAreValidated : Obligations.DecodedValuesAreValidated := by
  unfold Obligations.DecodedValuesAreValidated
  intro s h
  rw [← firstClass_octets] at h
  refine ⟨_, exec_dec_of_whole h, rfl, ?_⟩
  rw [withResults_res, withResults_len, word_toNat]
  exact ⟨Nat.le_sub_one_of_lt (wireValue_toNat_lt _ _),
    Nat.sub_le_sub_right (Nat.pow_le_pow_right (by decide) (usableBits_le _)) 1⟩

/-! ### The octets of an encoding -/

/-- The octets are the tagged word's digits, base 256, most significant first. -/
theorem wireOctet_toNat_eq_digit (c : LenClass) (x k : Nat) :
    (wireOctet c x k).toNat = taggedWord c x / 256 ^ (c.octets - 1 - k) % 256 := by
  simp [wireOctet, Nat.shiftRight_eq_div_pow, Nat.pow_mul]

theorem wireOctets_getElem? (c : LenClass) (x : Nat) {k : Nat} (h : k < c.octets) :
    (wireOctets c x)[k]? = some (wireOctet c x k) := by
  simp [wireOctets, h]

theorem taggedWord_mod (c : LenClass) {x : Nat} (h : x < 2 ^ c.usableBits) : taggedWord c x % 2 ^ c.usableBits = x := by
  rw [taggedWord_of_fits c h, Nat.mul_add_mod', Nat.mod_eq_of_lt h]

/-- The first octet is the tag over the value's top six usable bits (30_encoding.md R70). -/
theorem wireOctet_zero_toNat (c : LenClass) {x : Nat} (h : x < 2 ^ c.usableBits) :
    (wireOctet c x 0).toNat = c.tag.toNat * 64 + x / 2 ^ (8 * c.octets - 8) := by
  rw [wireOctet_toNat c h]
  cases c <;> simp only [LenClass.usableBits, LenClass.octets, LenClass.tag] at h ⊢ <;> omega

theorem tagBits_wireOctet_zero (c : LenClass) {x : Nat} (h : x < 2 ^ c.usableBits) : tagBits (wireOctet c x 0) = c.tag := by
  have htop : x / 2 ^ (8 * c.octets - 8) < 64 := by
    refine Nat.div_lt_of_lt_mul (h.trans_eq ?_)
    cases c <;> rfl
  apply BitVec.eq_of_toNat_eq
  rw [tagBits, BitVec.extractLsb'_toNat, wireOctet_zero_toNat c h, Nat.shiftRight_eq_div_pow]
  generalize x / 2 ^ (8 * c.octets - 8) = top at htop ⊢
  have := c.tag.isLt
  omega

/-- A window that starts with the octets of a value in a class is read in that class. -/
theorem firstClass_of_octets {win : Word} {c : LenClass} {x : Nat} (hx : x < 2 ^ c.usableBits)
    (h : ∀ k < c.octets, winByte win k = wireOctet c x k) : firstClass win = c := by
  rw [firstClass, h 0 (octets_pos c), tagBits_wireOctet_zero c hx, ofTag_tag]

theorem div_pow_sub_of_lt (y : Nat) {m i : Nat} (h : i < m) : y / 256 ^ (m - i) = y / 256 / 256 ^ (m - 1 - i) := by
  rw [Nat.div_div_eq_div_mul, ← pow_succ', show m - 1 - i + 1 = m - i by omega]

/-- The decoder's loop over the low digits of a number, base 256, appends them to what it starts from. -/
theorem foldl_digits (y a m : Nat) :
    (List.range m).foldl (fun n i => n * 256 + y / 256 ^ (m - 1 - i) % 256) a = a * 256 ^ m + y % 256 ^ m := by
  induction m generalizing y with
  | zero => simp [Nat.mod_one]
  | succ m ih =>
    have hhigh : (List.range m).foldl (fun n i => n * 256 + y / 256 ^ (m - i) % 256) a =
        a * 256 ^ m + y / 256 % 256 ^ m := by
      rw [← ih]
      refine List.foldl_ext _ _ _ fun n i hi => ?_
      rw [div_pow_sub_of_lt y (List.mem_range.mp hi)]
    rw [List.range_succ, List.foldl_append, Nat.add_sub_cancel, hhigh, Nat.pow_succ', Nat.mod_mul]
    simp only [List.foldl_cons, List.foldl_nil, Nat.sub_self, Nat.pow_zero, Nat.div_one]
    ring

/-- From the octets of a value in a class the decoder's loop puts the tagged word together again, without its tag. -/
theorem wireValue_of_octets {win : Word} {c : LenClass} {x : Nat} (h : ∀ k < c.octets, winByte win k = wireOctet c x k) :
    (wireValue win c).toNat = taggedWord c x % 2 ^ c.usableBits := by
  have hfold : (wireValue win c).toNat =
      (List.range (c.octets - 1)).foldl (fun n i => n * 256 + taggedWord c x / 256 ^ (c.octets - 1 - 1 - i) % 256)
        (taggedWord c x / 256 ^ (c.octets - 1) % 64) := by
    rw [wireValue_toNat, h 0 (octets_pos c), wireOctet_toNat_eq_digit, Nat.mod_mod_of_dvd _ (by decide)]
    refine List.foldl_ext _ _ _ fun n i hi => ?_
    have hlt := List.mem_range.mp hi
    rw [h (i + 1) (by omega), wireOctet_toNat_eq_digit, show c.octets - 1 - (i + 1) = c.octets - 1 - 1 - i by omega]
  have hsize : 2 ^ c.usableBits = 256 ^ (c.octets - 1) * 64 := by
    cases c <;> rfl
  rw [hfold, foldl_digits, hsize, Nat.mod_mul]
  ring

/-- The octets of a value that fits a class decode to it, minimal or not (30_encoding.md R74). -/
theorem exec_dec_of_octets {s : State} {c : LenClass} {x : Nat} (hx : x < 2 ^ c.usableBits) (hrem : c.octets ≤ s.inRem.toNat)
    (h : ∀ k < c.octets, winByte s.inWin k = wireOctet c x k) :
    exec .dec s = .next (s.withResults 0 (BitVec.ofNat 64 x) c.word c.word 0 0) := by
  have hclass := firstClass_of_octets hx h
  have hvalue : BitVec.ofNat 64 x = wireValue s.inWin c := by
    rw [← taggedWord_mod c hx, ← wireValue_of_octets h, BitVec.ofNat_toNat, BitVec.setWidth_eq]
  rw [exec_dec_of_whole (hclass.symm ▸ hrem), hclass, hvalue]

/-! ### Encoding -/

/-- A value fits the class it is classified in. -/
theorem lt_of_classify {x : Word} {c : LenClass} (h : classify x = some c) : x.toNat < 2 ^ c.usableBits := by
  unfold classify at h
  split at h
  · cases h; exact Nat.lt_of_le_of_lt ‹_› (by decide)
  split at h
  · cases h; exact Nat.lt_of_le_of_lt ‹_› (by decide)
  split at h
  · cases h; exact Nat.lt_of_le_of_lt ‹_› (by decide)
  split at h
  · cases h; exact Nat.lt_of_le_of_lt ‹_› (by decide)
  · cases h

/-- ENC of a value that fits no class (44_encoder.md R161). -/
theorem exec_enc_of_oversized {s : State} (h : classify s.opa = none) : exec .enc s = .next (s.withResults 2 0 0 0 0 0) := by
  simp only [exec, execEnc, h]
  rfl

/-- ENC with room for the value's minimal encoding (44_encoder.md R160). -/
theorem exec_enc_of_room {s : State} {c : LenClass} (hc : classify s.opa = some c) (h : c.octets ≤ s.outCap.toNat) :
    exec .enc s = .next (s.withResults 0 0 c.word 0 c.word (packWindow (wireOctets c s.opa.toNat))) := by
  simp only [exec, execEnc, hc]
  exact if_neg (Nat.not_lt.mpr h)

/-- ENC that reports `OK` produced the octets of the value's minimal class. -/
theorem exec_enc_minimal (s : State) : ∃ t, exec .enc s = .next t ∧
    (t.status = 0 → ∃ c, classify s.opa = some c ∧ t.outUsed.toNat = c.octets) := by
  cases hc : classify s.opa with
  | none => exact ⟨_, exec_enc_of_oversized hc, fun h => absurd h (by decide : (2 : Word) ≠ 0)⟩
  | some c =>
    by_cases hroom : c.octets ≤ s.outCap.toNat
    · exact ⟨_, exec_enc_of_room hc hroom, fun _ => ⟨c, rfl, word_toNat c⟩⟩
    · exact ⟨_, exec_enc_of_noSpace hc (Nat.not_le.mp hroom), fun h => absurd h (by decide : (3 : Word) ≠ 0)⟩

/-- Settles O25. The octets give class and value back by `exec_dec_of_octets`; 40 25 are the octets of 37 in two. -/
theorem nonMinimalEncodingsDecode : Obligations.NonMinimalEncodingsDecode := by
  unfold Obligations.NonMinimalEncodingsDecode
  refine ⟨fun s c x hx hrem h => ?_, exec_enc_minimal, fun s hrem hwin => ?_⟩
  · exact exec_dec_of_octets hx hrem fun k hk => BitVec.eq_of_toNat_eq ((h k hk).trans (wireOctet_toNat c hx k).symm)
  · refine exec_dec_of_octets (c := .two) (x := 37) (by decide) (by rw [hrem]; decide) ?_
    rw [hwin]
    decide

theorem octets_eq_two_pow_tag (c : LenClass) : c.octets = 2 ^ c.tag.toNat := by
  cases c <;> rfl

theorem wireOctets_length (c : LenClass) (x : Nat) : (wireOctets c x).length = c.octets := by
  rw [wireOctets, List.length_map, List.length_range]

/-- Settles O29. The octets are the tagged word's bytes, and the window ENC writes is those octets packed. -/
theorem encOctetsAreBigEndian : Obligations.EncOctetsAreBigEndian := by
  unfold Obligations.EncOctetsAreBigEndian
  refine ⟨fun c x hx => ⟨octets_eq_two_pow_tag c, rfl, wireOctets_length c x, fun k hk => ?_, ?_⟩, fun s c hc hroom => ?_⟩
  · exact ⟨_, wireOctets_getElem? c x hk, by rw [wireOctet_toNat_eq_digit, Nat.pow_mul]⟩
  · exact ⟨_, wireOctets_getElem? c x (octets_pos c), wireOctet_zero_toNat c hx⟩
  · refine ⟨_, exec_enc_of_room hc hroom, rfl, word_toNat c, word_toNat c, fun k hk => ?_, fun k hk hbeyond => ?_⟩
    · rw [withResults_outWin, winByte_packWindow _ (hk.trans_le (octets_le_eight c)), wireOctets_getD, if_pos hk]
      exact wireOctet_toNat c (lt_of_classify hc) k
    · rw [withResults_outWin, winByte_packWindow _ hk, wireOctets_getD, if_neg (Nat.not_lt.mpr hbeyond)]

/-! ### What a command reads and writes -/

/-- Results by the register `finish` writes them to, `STATUS` apart; a register that holds none is given 0. -/
def Results.getReg (r : Results) : Reg → Word
  | .res => r.res
  | .len => r.len
  | .inUsed => r.inUsed
  | .outUsed => r.outUsed
  | .outWin => r.outWin
  | .cmd | .opa | .opb | .inRem | .inWin | .outCap | .status => 0

theorem getReg_withResults_eq_results {q : Reg} (status : Word) (r : Results) (s : State) (h : q.hostAccess = .readOnly)
    (hs : q ≠ .status) : (s.withResults status r.res r.len r.inUsed r.outUsed r.outWin).getReg q = r.getReg q := by
  cases q with
  | res | len | inUsed | outUsed | outWin => rfl
  | status => exact absurd rfl hs
  | cmd | opa | opb | inRem | inWin | outCap => cases h

/-- The result registers keep nothing of the state the results are written over. -/
theorem getReg_withResults_congr {q : Reg} (s s' : State) (status res len inUsed outUsed outWin : Word)
    (h : q.hostAccess = .readOnly) :
    (s.withResults status res len inUsed outUsed outWin).getReg q =
      (s'.withResults status res len inUsed outUsed outWin).getReg q := by
  cases q <;> cases h <;> rfl

/-- The results are 0 but for the listed registers. -/
def Results.zeroOutside (listed : List Reg) (r : Results) : Prop := ∀ q, q ∉ listed → r.getReg q = 0

theorem Results.zeroOutside_empty (listed : List Reg) : ({} : Results).zeroOutside listed := by
  intro q _
  cases q <;> rfl

theorem Results.zeroOutside_res (v : Word) : ({ res := v } : Results).zeroOutside [.res] := by
  intro q hq
  cases q <;> simp [Results.getReg] at hq ⊢

theorem Results.zeroOutside_len (v : Word) : ({ len := v } : Results).zeroOutside [.len] := by
  intro q hq
  cases q <;> simp [Results.getReg] at hq ⊢

theorem Results.zeroOutside_decoded (v len used : Word) :
    ({ res := v, len := len, inUsed := used } : Results).zeroOutside [.res, .len, .inUsed] := by
  intro q hq
  cases q <;> simp [Results.getReg] at hq ⊢

theorem Results.zeroOutside_encoded (len used win : Word) :
    ({ len := len, outUsed := used, outWin := win } : Results).zeroOutside [.len, .outUsed, .outWin] := by
  intro q hq
  cases q <;> simp [Results.getReg] at hq ⊢

/-- What a command did in two states is the same: it ended with the same status and results, 0 but for the listed registers. -/
def EndAlike (listed : List Reg) (s s' : State) (o o' : Host.Outcome State Fault Refusal) : Prop :=
  ∃ (status : Word) (r : Results), r.zeroOutside listed ∧
    o = .next (s.withResults status r.res r.len r.inUsed r.outUsed r.outWin) ∧
    o' = .next (s'.withResults status r.res r.len r.inUsed r.outUsed r.outWin)

theorem endAlike_finished {listed : List Reg} {r : Results} (code : StatusCode) (s s' : State) (h : r.zeroOutside listed) :
    EndAlike listed s s' (finished code r s) (finished code r s') :=
  ⟨_, r, h, rfl, rfl⟩

/-- A failure that names no result is the same in every state. -/
theorem endAlike_failed (listed : List Reg) (code : StatusCode) (s s' : State) :
    EndAlike listed s s' (finished code {} s) (finished code {} s') :=
  endAlike_finished code s s' (Results.zeroOutside_empty listed)

/-- A check of the same operands takes the same branch. -/
theorem EndAlike.ite {listed : List Reg} {s s' : State} {a a' b b' : Host.Outcome State Fault Refusal} (p : Prop) [Decidable p]
    (ha : EndAlike listed s s' a a') (hb : EndAlike listed s s' b b') :
    EndAlike listed s s' (if p then a else b) (if p then a' else b') := by
  by_cases hp : p
  · rwa [if_pos hp, if_pos hp]
  · rwa [if_neg hp, if_neg hp]

theorem endAlike_finishInRange {listed : List Reg} {r : Results} (n : Nat) (s s' : State) (h : r.zeroOutside listed) :
    EndAlike listed s s' (finishInRange n r s) (finishInRange n r s') :=
  .ite _ (endAlike_failed listed .range s s') (endAlike_finished .ok s s' h)

/-- The narrow FROMs end with a value of the low bits alone. -/
theorem endAlike_narrowFrom {w : Nat} {s s' : State} (h : s.opa.toNat % 2 ^ w = s'.opa.toNat % 2 ^ w) :
    EndAlike [.res] s s' (finished .ok { res := opaNarrow w s } s) (finished .ok { res := opaNarrow w s' } s') := by
  rw [opaNarrow_eq_ofNat, opaNarrow_eq_ofNat, h]
  exact endAlike_finished .ok s s' (Results.zeroOutside_res _)

theorem endAlike_dec {s s' : State} (h : sameOperands .dec s s') :
    EndAlike [.res, .len, .inUsed] s s' (exec .dec s) (exec .dec s') := by
  obtain ⟨hrem, hbytes⟩ := h
  rw [← firstClass_octets] at hbytes
  obtain ⟨status, res, len, inUsed, he, he'⟩ := exec_dec_congr hrem.symm
    (fun _ => (hbytes 0 (octets_pos _)).symm) fun _ k hk => (hbytes k hk).symm
  exact ⟨status, { res := res, len := len, inUsed := inUsed }, Results.zeroOutside_decoded res len inUsed, he, he'⟩

/-- A command does the same in two states that give it the same operands (30_encoding.md R62). -/
theorem endAlike_exec {i : Instr} {s s' : State} (h : sameOperands i s s') :
    EndAlike (meaningfulResults i) s s' (exec i s) (exec i s') := by
  cases i with
  | fromU8 => exact endAlike_narrowFrom h
  | fromU16 => exact endAlike_narrowFrom h
  | fromU32 => exact endAlike_narrowFrom h
  | fromU64 =>
    have hopa : s.opa = s'.opa := h
    simp only [exec, execFromU64, opaNat, hopa]
    exact endAlike_finishInRange _ s s' (Results.zeroOutside_res _)
  | size =>
    have hopa : s.opa = s'.opa := h
    simp only [exec, execSize, opaNat, hopa]
    exact endAlike_finishInRange _ s s' (Results.zeroOutside_len _)
  | toVal =>
    have hopa : s.opa = s'.opa := h
    simp only [exec, execToVal, opaNat, hopa]
    exact endAlike_finishInRange _ s s' (Results.zeroOutside_res _)
  | add =>
    obtain ⟨hopa, hopb⟩ := h
    simp only [exec, execAdd, opaNat, opbNat, hopa, hopb]
    exact .ite _ (endAlike_failed _ .range s s') (endAlike_finishInRange _ s s' (Results.zeroOutside_res _))
  | addlen =>
    obtain ⟨hopa, hopb⟩ := h
    simp only [exec, execAddlen, opaNat, opbNat, hopa, hopb]
    exact .ite _ (endAlike_failed _ .range s s') <|
      .ite _ (endAlike_failed _ .lenOvf s s') (endAlike_finished .ok s s' (Results.zeroOutside_res _))
  | cls =>
    have hopa : s.opa = s'.opa := h
    simp only [exec, execCls, hopa]
    exact endAlike_finished .ok s s' (Results.zeroOutside_len _)
  | dec => exact endAlike_dec h
  | enc =>
    obtain ⟨hopa, hcap⟩ := h
    simp only [exec, execEnc, opaNat, outCapNat, hopa, hcap]
    cases classify s'.opa with
    | none => exact endAlike_failed _ .oversized s s'
    | some c =>
      exact .ite _ (endAlike_failed _ .noSpace s s') (endAlike_finished .ok s s' (Results.zeroOutside_encoded _ _ _))

/-- Settles O37. The two ends write one status and one set of results, 0 but for the registers of R62. -/
theorem commandsReadOnlyTheirOperands : Obligations.CommandsReadOnlyTheirOperands := by
  unfold Obligations.CommandsReadOnlyTheirOperands
  intro i s s' h
  obtain ⟨status, r, hzero, he, he'⟩ := endAlike_exec h
  refine ⟨_, _, he, he', fun q hq => getReg_withResults_congr s s' _ _ _ _ _ _ hq, fun q hq hs hlist => ?_⟩
  rw [getReg_withResults_eq_results status r s hq hs, hzero q hlist]

end Sys2Proof.Machine

/-! PROOFS. The validated value commands: range check, size, extraction, bounded addition and their frame (41_value.md). -/

namespace Sys2Proof.Machine

/-! ### The range check -/

theorem exceedsVmax_iff (n : Nat) : exceedsVmax n = true ↔ 2 ^ 62 - 1 < n := decide_eq_true_iff

/-- A word exceeds `VMAX` exactly when one of its top two bits is set (41_value.md R103). -/
theorem vmax_lt_iff_top_bits (x : Word) : 2 ^ 62 - 1 < x.toNat ↔ x.getLsbD 63 = true ∨ x.getLsbD 62 = true := by
  have hlt : x.toNat < 2 ^ 64 := x.isLt
  simp only [BitVec.getLsbD, Nat.testBit_eq_decide_div_mod_eq, decide_eq_true_eq]
  omega

/-! ### Construction and extraction -/

theorem exec_fromU64_of_le {s : State} (h : s.opa.toNat ≤ 2 ^ 62 - 1) :
    exec .fromU64 s = .next (s.withResults 0 s.opa 0 0 0 0) := finishInRange_of_le _ s h

theorem exec_fromU64_of_lt {s : State} (h : 2 ^ 62 - 1 < s.opa.toNat) :
    exec .fromU64 s = .next (s.withResults 4 0 0 0 0 0) := finishInRange_of_lt _ s h

theorem exec_toVal_of_le {s : State} (h : s.opa.toNat ≤ 2 ^ 62 - 1) :
    exec .toVal s = .next (s.withResults 0 s.opa 0 0 0 0) := finishInRange_of_le _ s h

theorem exec_toVal_of_lt {s : State} (h : 2 ^ 62 - 1 < s.opa.toNat) :
    exec .toVal s = .next (s.withResults 4 0 0 0 0 0) := finishInRange_of_lt _ s h

/-- Settles O7. The check is `finishInRange` of `OPA`. -/
theorem fromU64ChecksTheRange : Obligations.FromU64ChecksTheRange := by
  unfold Obligations.FromU64ChecksTheRange
  exact fun s => ⟨exec_fromU64_of_le, exec_fromU64_of_lt, vmax_lt_iff_top_bits s.opa⟩

/-- Settles O10. TO ends with the same check as FROM.U64. -/
theorem toExtractsAValidatedValue : Obligations.ToExtractsAValidatedValue := by
  unfold Obligations.ToExtractsAValidatedValue
  exact fun _ => ⟨exec_toVal_of_le, exec_toVal_of_lt⟩

/-! ### Size -/

theorem classify_eq_one {x : Word} (h : x.toNat ≤ 63) : classify x = some .one := if_pos h

theorem classify_eq_two {x : Word} (hlow : 64 ≤ x.toNat) (h : x.toNat ≤ 16383) : classify x = some .two := by
  rw [classify, if_neg (by omega), if_pos h]

theorem classify_eq_four {x : Word} (hlow : 16384 ≤ x.toNat) (h : x.toNat ≤ 1073741823) : classify x = some .four := by
  rw [classify, if_neg (by omega), if_neg (by omega), if_pos h]

theorem classify_eq_eight {x : Word} (hlow : 1073741824 ≤ x.toNat) (h : x.toNat ≤ 2 ^ 62 - 1) :
    classify x = some .eight := by
  rw [classify, if_neg (by omega), if_neg (by omega), if_neg (by omega)]
  exact if_pos h

/-- The words without a class are those that are no validated value (42_classifier.md R130). -/
theorem classify_eq_none_iff (x : Word) : classify x = none ↔ 2 ^ 62 - 1 < x.toNat := by
  unfold classify
  split_ifs <;> simp only [false_iff, true_iff] <;> omega

theorem toNat_le_of_classify {x : Word} {c : LenClass} (h : classify x = some c) : x.toNat ≤ 2 ^ 62 - 1 := by
  by_contra hgt
  have hnone := (classify_eq_none_iff x).mpr (Nat.not_le.mp hgt)
  rw [h] at hnone
  cases hnone

/-- SIZE of a value with a class reports the class's octets (41_value.md R105). -/
theorem exec_size_of_classify {s : State} {c : LenClass} (h : classify s.opa = some c) :
    exec .size s = .next (s.withResults 0 0 c.word 0 0 0) := by
  simp only [exec, execSize, h]
  exact finishInRange_of_le _ s (toNat_le_of_classify h)

theorem exec_size_of_lt {s : State} (h : 2 ^ 62 - 1 < s.opa.toNat) :
    exec .size s = .next (s.withResults 4 0 0 0 0 0) := finishInRange_of_lt _ s h

theorem exec_cls (s : State) : exec .cls s = .next (s.withResults 0 0 (lenResult (classify s.opa)) 0 0 0) := rfl

theorem word_ne_zero (c : LenClass) : c.word ≠ 0 := by
  cases c <;> decide

/-- Settles O8. Each range is a class of `classify`, and SIZE reports the class. -/
theorem sizeGivesTheMinimalLength : Obligations.SizeGivesTheMinimalLength := by
  unfold Obligations.SizeGivesTheMinimalLength
  exact fun s => ⟨fun h => exec_size_of_classify (classify_eq_one h),
    fun hlow h => exec_size_of_classify (classify_eq_two hlow h),
    fun hlow h => exec_size_of_classify (classify_eq_four hlow h),
    fun hlow h => exec_size_of_classify (classify_eq_eight hlow h), exec_size_of_lt⟩

/-- Settles O9. With a class both report its octets, which are not 0; without one SIZE reports RANGE. -/
theorem sizeAgreesWithClassify : Obligations.SizeAgreesWithClassify := by
  unfold Obligations.SizeAgreesWithClassify
  intro s
  have hvalid : s.opa.toNat ≤ 2 ^ 62 - 1 → classify s.opa ≠ none := fun hle hn =>
    absurd hle (Nat.not_le.mpr ((classify_eq_none_iff s.opa).mp hn))
  cases hc : classify s.opa with
  | none =>
    have hgt := (classify_eq_none_iff s.opa).mp hc
    exact ⟨_, _, exec_size_of_lt hgt, exec_cls s, fun h => absurd h (by decide : (4 : Word) ≠ 0), hc ▸ hvalid⟩
  | some c =>
    refine ⟨_, _, exec_size_of_classify hc, exec_cls s, fun _ => ⟨?_, word_ne_zero c⟩, hc ▸ hvalid⟩
    rw [withResults_len, withResults_len, hc, lenResult]

/-! ### Bounded addition -/

/-- A sum within `VMAX` has both operands within it, so the sum alone decides ADD (41_value.md R109). -/
theorem exec_add_of_le {s : State} (h : s.opa.toNat + s.opb.toNat ≤ 2 ^ 62 - 1) :
    exec .add s = .next (s.withResults 0 (BitVec.ofNat 64 (s.opa.toNat + s.opb.toNat)) 0 0 0 0) := by
  have hoperands : ¬(exceedsVmax (opaNat s) || exceedsVmax (opbNat s)) = true := by
    simp only [Bool.or_eq_true, exceedsVmax_iff, opaNat, opbNat]
    omega
  simp only [exec, execAdd, if_neg hoperands]
  exact finishInRange_of_le _ s h

/-- Whether an operand or only the sum exceeds `VMAX`, ADD reports RANGE. -/
theorem exec_add_of_lt {s : State} (h : 2 ^ 62 - 1 < s.opa.toNat + s.opb.toNat) :
    exec .add s = .next (s.withResults 4 0 0 0 0 0) := by
  simp only [exec, execAdd]
  split
  · rfl
  · exact finishInRange_of_lt _ s h

/-- Settles O11. An operand above `VMAX` makes the sum exceed it, so the sum decides. -/
theorem addIsExactOrRange : Obligations.AddIsExactOrRange := by
  unfold Obligations.AddIsExactOrRange
  exact fun s => ⟨fun _ _ h => exec_add_of_le h, fun h => exec_add_of_lt (by omega)⟩

/-- ADD completes, is `OK` exactly when the sum is within `VMAX`, and then gives the sum as a number. -/
theorem exec_add_exact (s : State) : ∃ t, exec .add s = .next t ∧
    (t.status = 0 ↔ s.opa.toNat + s.opb.toNat ≤ 2 ^ 62 - 1) ∧
    (t.status = 0 → t.res.toNat = s.opa.toNat + s.opb.toNat) := by
  by_cases h : s.opa.toNat + s.opb.toNat ≤ 2 ^ 62 - 1
  · refine ⟨_, exec_add_of_le h, ⟨fun _ => h, fun _ => rfl⟩, fun _ => ?_⟩
    rw [withResults_res, BitVec.toNat_ofNat]
    omega
  · have hstatus : (4 : Word) ≠ 0 := by decide
    exact ⟨_, exec_add_of_lt (Nat.not_le.mp h), ⟨fun h0 => absurd h0 hstatus, fun hle => absurd hle h⟩,
      fun h0 => absurd h0 hstatus⟩

/-- Settles O12. The three runs give the sums of numbers, which commute and have 0 as their unit. -/
theorem addCommutesAndNeverWraps : Obligations.AddCommutesAndNeverWraps := by
  unfold Obligations.AddCommutesAndNeverWraps
  intro s a b
  obtain ⟨t, ht, htok, htsum⟩ := exec_add_exact { s with opa := a, opb := b }
  obtain ⟨u, hu, -, husum⟩ := exec_add_exact { s with opa := b, opb := a }
  obtain ⟨z, hz, -, hzsum⟩ := exec_add_exact { s with opa := a, opb := 0 }
  have hbound : a.toNat + b.toNat ≤ 2 ^ 62 - 1 ↔
      a.toNat ≤ 2 ^ 62 - 1 ∧ b.toNat ≤ 2 ^ 62 - 1 ∧ a.toNat + b.toNat ≤ 2 ^ 62 - 1 := by omega
  refine ⟨t, u, z, ht, hu, hz, htok.trans hbound, fun ht0 hu0 => ?_, htsum, fun hz0 => ?_⟩
  · exact BitVec.eq_of_toNat_eq (by rw [htsum ht0, husum hu0, Nat.add_comm])
  · exact BitVec.eq_of_toNat_eq (hzsum hz0)

theorem exec_addlen_of_lt {s : State} (h : 2 ^ 62 - 1 < s.opa.toNat) :
    exec .addlen s = .next (s.withResults 4 0 0 0 0 0) := if_pos ((exceedsVmax_iff _).mpr h)

/-- ADDLEN with a validated operand reports a native overflow, or gives the exact sum (41_value.md R111, R112). -/
theorem exec_addlen_of_le {s : State} (h : s.opa.toNat ≤ 2 ^ 62 - 1) :
    exec .addlen s =
      if 2 ^ 64 - 1 < s.opa.toNat + s.opb.toNat then .next (s.withResults 5 0 0 0 0 0)
      else .next (s.withResults 0 (BitVec.ofNat 64 (s.opa.toNat + s.opb.toNat)) 0 0 0 0) :=
  if_neg (mt (exceedsVmax_iff _).mp (Nat.not_lt.mpr h))

/-- Settles O13. The check of `OPA` comes first, then the bound of the native sum. -/
theorem addlenIsExactOrReportsOverflow : Obligations.AddlenIsExactOrReportsOverflow := by
  unfold Obligations.AddlenIsExactOrReportsOverflow
  refine fun s => ⟨exec_addlen_of_lt, fun ha hsum => ?_, fun ha hsum => ?_⟩
  · rw [exec_addlen_of_le ha, if_pos hsum]
  · rw [exec_addlen_of_le ha, if_neg (Nat.not_lt.mpr hsum)]

/-! ### The bound of every `OK` value -/

/-- The command completes, and an `OK` result is a validated value (41_value.md R104). -/
def OkWithinVmax (o : Host.Outcome State Fault Refusal) : Prop :=
  ∃ t, o = .next t ∧ (t.status = 0 → t.res.toNat ≤ 2 ^ 62 - 1)

theorem okWithinVmax_finished (code : StatusCode) {r : Results} (s : State) (h : r.res.toNat ≤ 2 ^ 62 - 1) :
    OkWithinVmax (finished code r s) := ⟨_, rfl, fun _ => h⟩

/-- A command that names no value leaves `RES` 0. -/
theorem okWithinVmax_without_res (code : StatusCode) (len inUsed outUsed outWin : Word) (s : State) :
    OkWithinVmax (finished code { len := len, inUsed := inUsed, outUsed := outUsed, outWin := outWin } s) :=
  okWithinVmax_finished code s (Nat.zero_le _)

/-- Behind the range check only a value that passed it need be within the bound. -/
theorem okWithinVmax_finishInRange {n : Nat} {r : Results} (s : State) (h : n ≤ 2 ^ 62 - 1 → r.res.toNat ≤ 2 ^ 62 - 1) :
    OkWithinVmax (finishInRange n r s) := by
  unfold finishInRange
  split
  · exact okWithinVmax_without_res .range 0 0 0 0 s
  · rename_i hn
    exact okWithinVmax_finished .ok s (h (Nat.not_lt.mp (mt (exceedsVmax_iff n).mpr hn)))

/-- A narrow operand has at most 32 bits, so it needs no check. -/
theorem okWithinVmax_narrowFrom {w : Nat} (s : State) (hw : w ≤ 32) :
    OkWithinVmax (finished .ok { res := opaNarrow w s } s) := by
  refine okWithinVmax_finished .ok s ?_
  have hlow : s.opa.toNat % 2 ^ w < 2 ^ w := Nat.mod_lt _ (Nat.two_pow_pos w)
  have hpow : 2 ^ w ≤ 2 ^ 32 := Nat.pow_le_pow_right (by decide) hw
  rw [opaNarrow_eq_ofNat, BitVec.toNat_ofNat]
  omega

/-- A decoded value has the usable bits of its class, at most 62. -/
theorem wireValue_toNat_le_vmax (win : Word) (c : LenClass) : (wireValue win c).toNat ≤ 2 ^ 62 - 1 :=
  Nat.le_sub_one_of_lt ((wireValue_toNat_lt win c).trans_le (Nat.pow_le_pow_right (by decide) (usableBits_le c)))

theorem okWithinVmax_exec {i : Instr} (s : State) (hi : i ≠ .addlen) : OkWithinVmax (exec i s) := by
  cases i with
  | fromU8 => exact okWithinVmax_narrowFrom s (by decide)
  | fromU16 => exact okWithinVmax_narrowFrom s (by decide)
  | fromU32 => exact okWithinVmax_narrowFrom s (by decide)
  | fromU64 => exact okWithinVmax_finishInRange s id
  | size => exact okWithinVmax_finishInRange s fun _ => Nat.zero_le _
  | toVal => exact okWithinVmax_finishInRange s id
  | add =>
    obtain ⟨t, ht, hok, hsum⟩ := exec_add_exact s
    exact ⟨t, ht, fun h0 => (hsum h0).trans_le (hok.mp h0)⟩
  | addlen => exact absurd rfl hi
  | cls => exact okWithinVmax_without_res .ok _ 0 0 0 s
  | dec =>
    by_cases h : (firstClass s.inWin).octets ≤ s.inRem.toNat
    · exact ⟨_, exec_dec_of_whole h, fun _ => wireValue_toNat_le_vmax _ _⟩
    · obtain ⟨used, he⟩ := exec_dec_of_short (Nat.not_le.mp h)
      exact ⟨_, he, fun _ => Nat.zero_le _⟩
  | enc =>
    simp only [exec, execEnc]
    split
    · exact okWithinVmax_without_res .oversized 0 0 0 0 s
    · split
      · exact okWithinVmax_without_res .noSpace 0 0 0 0 s
      · exact okWithinVmax_without_res .ok _ 0 _ _ s

/-- Settles O14. Every `OK` end is within the bound command by command; an operand above it is caught by the command's own
check. -/
theorem noOkValueExceedsTheBound : Obligations.NoOkValueExceedsTheBound := by
  unfold Obligations.NoOkValueExceedsTheBound
  refine ⟨fun i s hi => okWithinVmax_exec s hi, fun i s hi h => ?_, fun s h => exec_add_of_lt (by omega)⟩
  simp only [List.mem_cons, List.not_mem_nil, or_false] at hi
  rcases hi with rfl | rfl | rfl | rfl | rfl
  · exact exec_fromU64_of_lt h
  · exact exec_size_of_lt h
  · exact exec_toVal_of_lt h
  · exact exec_add_of_lt (by omega)
  · exact exec_addlen_of_lt h

/-! ### The frame -/

/-- Settles O36. A command is one `finish`, which writes result registers alone. -/
theorem commandsChangeOnlyResultRegisters : Obligations.CommandsChangeOnlyResultRegisters := by
  unfold Obligations.CommandsChangeOnlyResultRegisters
  intro i s
  obtain ⟨code, r, h⟩ := exec_finishes i s
  exact ⟨_, h, rfl, rfl, rfl, rfl, rfl, rfl, rfl⟩

end Sys2Proof.Machine

/-! PROOFS. The classifier: its buckets and bit tests, its laws, and CLS (42_classifier.md). -/

namespace Sys2Proof.Machine

/-! ### The bucket of a class -/

/-- The least value of a class's bucket (42_classifier.md R130); the bucket ends where the class's usable bits do. -/
def LenClass.least : LenClass → Nat
  | .one => 0
  | .two => 64
  | .four => 16384
  | .eight => 1073741824

theorem least_le_of_classify {x : Word} {c : LenClass} (h : classify x = some c) : c.least ≤ x.toNat := by
  unfold classify at h
  split_ifs at h <;> cases h <;> simp only [LenClass.least] <;> omega

/-- The buckets: a class is given exactly from its least value to the end of its usable bits (42_classifier.md R130). -/
theorem classify_eq_some_iff (x : Word) (c : LenClass) :
    classify x = some c ↔ c.least ≤ x.toNat ∧ x.toNat ≤ 2 ^ c.usableBits - 1 := by
  refine ⟨fun h => ⟨least_le_of_classify h, Nat.le_sub_one_of_lt (lt_of_classify h)⟩, fun ⟨hlow, hhigh⟩ => ?_⟩
  cases c with
  | one => exact classify_eq_one hhigh
  | two => exact classify_eq_two hlow hhigh
  | four => exact classify_eq_four hlow hhigh
  | eight => exact classify_eq_eight hlow hhigh

/-! ### The bit tests -/

/-- A word is below a power of two exactly when its bits from there on are 0. -/
theorem le_two_pow_sub_one_iff_high_bits_zero (x : Word) (k : Nat) {n : Nat} (h : k + n = 64) :
    x.toNat ≤ 2 ^ k - 1 ↔ x.extractLsb' k n = 0 := by
  have hfits : x.toNat / 2 ^ k < 2 ^ n := Nat.div_lt_of_lt_mul (by rw [← Nat.pow_add, h]; exact x.isLt)
  rw [← BitVec.toNat_inj, BitVec.extractLsb'_toNat, Nat.shiftRight_eq_div_pow, Nat.mod_eq_of_lt hfits,
    Nat.le_sub_one_iff_lt (Nat.two_pow_pos k), ← Nat.div_eq_zero_iff_lt (Nat.two_pow_pos k)]
  rfl

/-- Each comparison of `classify` is a test of the high bits (42_classifier.md R130). -/
theorem classify_eq_bit_tests (x : Word) :
    classify x =
      if x.extractLsb' 6 58 = 0 then some .one
      else if x.extractLsb' 14 50 = 0 then some .two
      else if x.extractLsb' 30 34 = 0 then some .four
      else if x.extractLsb' 62 2 = 0 then some .eight
      else none :=
  if_congr (le_two_pow_sub_one_iff_high_bits_zero x 6 rfl) rfl <|
    if_congr (le_two_pow_sub_one_iff_high_bits_zero x 14 rfl) rfl <|
      if_congr (le_two_pow_sub_one_iff_high_bits_zero x 30 rfl) rfl <|
        if_congr (le_two_pow_sub_one_iff_high_bits_zero x 62 rfl) rfl rfl

/-- Settles O15. The buckets are those of `classify_eq_some_iff`; the first starts at 0, so its lower bound says nothing. -/
theorem classifyBucketsAreBitTests : Obligations.ClassifyBucketsAreBitTests := by
  unfold Obligations.ClassifyBucketsAreBitTests
  exact fun x => ⟨(classify_eq_some_iff x .one).trans (and_iff_right (Nat.zero_le _)), classify_eq_some_iff x .two,
    classify_eq_some_iff x .four, classify_eq_some_iff x .eight, classify_eq_none_iff x, classify_eq_bit_tests x⟩

/-! ### Monotone and minimal -/

/-- The bucket of a longer class starts where the usable bits of the class of half its length end. -/
theorem least_of_one_lt_octets {c : LenClass} (h : 1 < c.octets) : c.least = 2 ^ (8 * (c.octets / 2) - 2) := by
  cases c with
  | one => exact absurd h (Nat.lt_irrefl 1)
  | two | four | eight => rfl

/-- A class whose bucket starts within another's usable bits is no longer than it. -/
theorem octets_le_of_least_lt {c d : LenClass} (h : c.least < 2 ^ d.usableBits) : c.octets ≤ d.octets := by
  revert h
  cases c <;> cases d <;> decide

theorem classify_mono {x y : Word} {d : LenClass} (hxy : x.toNat ≤ y.toNat) (hy : classify y = some d) :
    ∃ c, classify x = some c ∧ c.octets ≤ d.octets := by
  cases hx : classify x with
  | none =>
    have hgt := (classify_eq_none_iff x).mp hx
    exact absurd (hxy.trans (toNat_le_of_classify hy)) (Nat.not_le.mpr hgt)
  | some c =>
    have hlow : c.least ≤ y.toNat := (least_le_of_classify hx).trans hxy
    exact ⟨c, rfl, octets_le_of_least_lt (hlow.trans_lt (lt_of_classify hy))⟩

/-- Settles O17. Buckets are ordered as their classes are; a value at or past its class's least fits no shorter class. -/
theorem classifyIsMonotoneAndMinimal : Obligations.ClassifyIsMonotoneAndMinimal := by
  unfold Obligations.ClassifyIsMonotoneAndMinimal
  refine ⟨fun _ _ _ => classify_mono, fun x c h => ⟨lt_of_classify h, fun hlong => ?_⟩, classify_eq_none_iff⟩
  rw [← least_of_one_lt_octets hlong]
  exact least_le_of_classify h

/-! ### CLS -/

theorem exec_cls_of_classify {s : State} {c : LenClass} (h : classify s.opa = some c) :
    exec .cls s = .next (s.withResults 0 0 c.word 0 0 0) := by
  rw [exec_cls, h, lenResult]

/-- A value without a class is `OK` with an empty result (42_classifier.md R131). -/
theorem exec_cls_of_lt {s : State} (h : 2 ^ 62 - 1 < s.opa.toNat) : exec .cls s = .next (s.withResults 0 0 0 0 0 0) := by
  rw [exec_cls, (classify_eq_none_iff s.opa).mpr h, lenResult]

/-- Settles O16. Each range is a class of `classify`, which CLS reports; above the last there is none. -/
theorem clsReportsTheLengthOrZero : Obligations.ClsReportsTheLengthOrZero := by
  unfold Obligations.ClsReportsTheLengthOrZero
  exact fun s => ⟨fun h => exec_cls_of_classify (classify_eq_one h),
    fun hlow h => exec_cls_of_classify (classify_eq_two hlow h),
    fun hlow h => exec_cls_of_classify (classify_eq_four hlow h),
    fun hlow h => exec_cls_of_classify (classify_eq_eight hlow h), exec_cls_of_lt⟩

end Sys2Proof.Machine

/-! PROOFS. The decoder: the round trip with the encoder, the decoded value, what DEC consumes and what it depends on
(43_decoder.md). -/

namespace Sys2Proof.Machine

/-! ### The round trip -/

/-- The window ENC writes starts with the value's octets. -/
theorem winByte_packWindow_wireOctets {c : LenClass} (x : Nat) {k : Nat} (h : k < c.octets) :
    winByte (packWindow (wireOctets c x)) k = wireOctet c x k := by
  rw [winByte_packWindow _ (h.trans_le (octets_le_eight c)), wireOctets_getD, if_pos h]

/-- Settles O33. ENC writes the octets of `OPA` in its class, and a window that starts with them decodes to `OPA`. -/
theorem decodeInvertsEncode : Obligations.DecodeInvertsEncode := by
  unfold Obligations.DecodeInvertsEncode
  intro s c hc hroom
  refine ⟨_, exec_enc_of_room hc hroom, rfl, word_toNat c, rfl, fun u hrem hbytes => ?_⟩
  have hoctets : ∀ k < c.octets, winByte u.inWin k = wireOctet c s.opa.toNat k := fun k hk =>
    (hbytes k hk).trans (winByte_packWindow_wireOctets s.opa.toNat hk)
  rw [exec_dec_of_octets (lt_of_classify hc) hrem hoctets, BitVec.ofNat_toNat, BitVec.setWidth_eq, withResults_len]

/-! ### The decoded value -/

/-- The decoded value is the word of the first `L` window bytes without its tag. -/
theorem wireValue_eq_ofNat (win : Word) (c : LenClass) :
    wireValue win c = BitVec.ofNat 64 (win.toNat / 2 ^ (64 - 8 * c.octets) % 2 ^ (8 * c.octets - 2)) := by
  rw [← wireValue_eq_mod, BitVec.ofNat_toNat, BitVec.setWidth_eq]

/-- In the eight-octet class the value is the whole window with its two tag bits cleared. -/
theorem wireValue_eight (win : Word) : wireValue win .eight = win &&& 0x3FFFFFFFFFFFFFFF := by
  apply BitVec.eq_of_toNat_eq
  rw [wireValue_eq_mod, BitVec.toNat_and]
  exact (congrArg (· % 2 ^ 62) (Nat.div_one win.toNat)).trans (Nat.and_two_pow_sub_one_eq_mod win.toNat 62).symm

theorem eq_eight_of_octets {c : LenClass} (h : c.octets = 8) : c = .eight := by
  cases c with
  | eight => rfl
  | one | two | four => cases h

/-- Settles O20. `L` is the length of the window's first class, whose value DEC reports; the two forms of it are
`wireValue_eq_mod` and `wireValue_toNat`. -/
theorem decReconstructsTheValue : Obligations.DecReconstructsTheValue := by
  unfold Obligations.DecReconstructsTheValue
  intro s L hL hrem
  rw [← firstClass_octets] at hL
  subst hL
  rw [← wireValue_eq_ofNat]
  refine ⟨exec_dec_of_whole hrem, (wireValue_eq_mod _ _).symm.trans (wireValue_toNat _ _), fun h8 => ?_⟩
  rw [eq_eight_of_octets h8, wireValue_eight]

/-! ### What DEC depends on and what it consumes -/

/-- Settles O22. The two ends write one status and one set of results, over states of which nothing else is read back. -/
theorem decDependsOnlyOnTheBytesItReads : Obligations.DecDependsOnlyOnTheBytesItReads := by
  unfold Obligations.DecDependsOnlyOnTheBytesItReads
  intro s s' hrem htag hall
  rw [← firstClass_octets] at hall
  obtain ⟨status, res, len, inUsed, he, he'⟩ := exec_dec_congr hrem htag hall
  exact ⟨_, _, he, he', fun r hr => getReg_withResults_congr s' s _ _ _ _ _ _ hr⟩

/-- Settles O18. An empty stream ends DEC at its first check. -/
theorem decOnAnEmptyStream : Obligations.DecOnAnEmptyStream := by
  unfold Obligations.DecOnAnEmptyStream
  exact fun s => exec_dec_of_empty

/-- Settles O21. The stream is empty, ends within its first encoding, or holds it whole; DEC consumes 0, 1 or all its octets. -/
theorem decConsumesWhatItNeeds : Obligations.DecConsumesWhatItNeeds := by
  unfold Obligations.DecConsumesWhatItNeeds
  intro s L hL
  rw [← firstClass_octets] at hL
  subst hL
  have hpos := octets_pos (firstClass s.inWin)
  by_cases hempty : s.inRem = 0
  · have hrem : s.inRem.toNat = 0 := congrArg BitVec.toNat hempty
    refine ⟨_, exec_dec_of_empty hempty, ?_⟩
    rw [withResults_inUsed, show (0 : Word).toNat = 0 from rfl]
    omega
  have hone := one_le_inRem hempty
  by_cases hshort : s.inRem.toNat < (firstClass s.inWin).octets
  · refine ⟨_, exec_dec_of_truncated hempty hshort, ?_⟩
    rw [withResults_inUsed, show (1 : Word).toNat = 1 from rfl]
    omega
  · refine ⟨_, exec_dec_of_whole (Nat.not_lt.mp hshort), ?_⟩
    rw [withResults_inUsed, word_toNat]
    omega

end Sys2Proof.Machine

/-! PROOFS. The encoder: the window it writes, its failures and what its output depends on (44_encoder.md). -/

namespace Sys2Proof.Machine

/-! ### The tagged word -/

/-- Settles O32. A value of a class is below the two tag bits, so the tagged word is a sum that the remainder takes apart. -/
theorem tagLosesNoValueBit : Obligations.TagLosesNoValueBit := by
  unfold Obligations.TagLosesNoValueBit
  intro x c h
  have hfits : x.toNat < 2 ^ (8 * c.octets - 2) := lt_of_classify h
  refine ⟨?_, Nat.testBit_lt_two_pow hfits, taggedWord_of_fits c hfits, taggedWord_mod c hfits⟩
  exact Nat.testBit_lt_two_pow (hfits.trans_le (Nat.pow_le_pow_right (by decide) (by omega)))

/-- The tagged word of a value that fits its class fits the class's octets. -/
theorem taggedWord_lt (c : LenClass) {x : Nat} (h : x < 2 ^ c.usableBits) : taggedWord c x < 2 ^ (8 * c.octets) := by
  have hsize : 2 ^ (8 * c.octets) = 4 * 2 ^ c.usableBits := by
    cases c <;> rfl
  calc taggedWord c x = c.tag.toNat * 2 ^ c.usableBits + x := taggedWord_of_fits c h
    _ < (c.tag.toNat + 1) * 2 ^ c.usableBits := by rw [Nat.succ_mul]; exact Nat.add_lt_add_left h _
    _ ≤ 4 * 2 ^ c.usableBits := Nat.mul_le_mul_right _ c.tag.isLt
    _ = 2 ^ (8 * c.octets) := hsize.symm

/-- A number shifted left by `m` bits and right by `n`: the smaller shift is taken off the larger. -/
theorem mul_two_pow_div_two_pow_of_le (t : Nat) {m n : Nat} (h : m ≤ n) : t * 2 ^ m / 2 ^ n = t / 2 ^ (n - m) := by
  conv_lhs => rw [← Nat.sub_add_cancel h, Nat.pow_add]
  exact Nat.mul_div_mul_right _ _ (Nat.two_pow_pos m)

/-- The octets of a value, packed, are its tagged word in the window's top bits, zeros below (20_memory.md R42, R45). -/
theorem packWindow_wireOctets (c : LenClass) {x : Nat} (h : x < 2 ^ c.usableBits) :
    packWindow (wireOctets c x) = BitVec.ofNat 64 (taggedWord c x * 2 ^ (64 - 8 * c.octets)) := by
  have hL := octets_le_eight c
  have hfits : taggedWord c x * 2 ^ (64 - 8 * c.octets) < 2 ^ 64 := by
    calc _ < 2 ^ (8 * c.octets) * 2 ^ (64 - 8 * c.octets) := Nat.mul_lt_mul_of_pos_right (taggedWord_lt c h) (Nat.two_pow_pos _)
      _ = 2 ^ 64 := by rw [← Nat.pow_add, Nat.add_sub_cancel' (by omega)]
  refine winByte_ext fun k hk => BitVec.eq_of_toNat_eq ?_
  rw [winByte_packWindow _ hk, wireOctets_getD, winByte_toNat _ hk, BitVec.toNat_ofNat, Nat.mod_eq_of_lt hfits]
  split
  case isTrue hin =>
    rw [mul_two_pow_div_two_pow_of_le _ (by omega), wireOctet_toNat_eq_digit, show 256 = 2 ^ 8 from rfl, ← Nat.pow_mul,
      show 56 - 8 * k - (64 - 8 * c.octets) = 8 * (c.octets - 1 - k) by omega]
  case isFalse hout =>
    have hsplit : 64 - 8 * c.octets = 8 * (k - c.octets) + 8 + (56 - 8 * k) := by omega
    rw [hsplit, Nat.pow_add, ← Nat.mul_assoc, Nat.mul_div_cancel _ (Nat.two_pow_pos _), Nat.pow_add, ← Nat.mul_assoc]
    exact (Nat.mul_mod_left _ _).symm

/-! ### ENC -/

theorem exec_enc_of_le {s : State} (h : 2 ^ 62 ≤ s.opa.toNat) : exec .enc s = .next (s.withResults 2 0 0 0 0 0) :=
  exec_enc_of_oversized ((classify_eq_none_iff s.opa).mpr h)

/-- ENC with room writes the value under its class's tag in the top `8L` bits of the window (44_encoder.md R160, R167). -/
theorem exec_enc_tagged {s : State} {c : LenClass} (hc : classify s.opa = some c) (h : c.octets ≤ s.outCap.toNat) :
    exec .enc s = .next (s.withResults 0 0 c.word 0 c.word
      (BitVec.ofNat 64 ((c.tag.toNat * 2 ^ c.usableBits + s.opa.toNat) * 2 ^ (64 - 8 * c.octets)))) := by
  have hfits := lt_of_classify hc
  rw [exec_enc_of_room hc h, packWindow_wireOctets c hfits, taggedWord_of_fits c hfits]

/-- Settles O28. Each range is a class of `classify`; the tag of the first is 0, and the window of the last has no bit below. -/
theorem encWritesTheTaggedWord : Obligations.EncWritesTheTaggedWord := by
  unfold Obligations.EncWritesTheTaggedWord
  refine fun s => ⟨exec_enc_of_le, fun c => exec_enc_of_noSpace, fun h hroom => ?_,
    fun hlow h => exec_enc_tagged (classify_eq_two hlow h), fun hlow h => exec_enc_tagged (classify_eq_four hlow h),
    fun hlow h hroom => ?_⟩
  · have hone := exec_enc_tagged (classify_eq_one h) hroom
    rwa [show LenClass.one.tag.toNat = 0 from rfl, Nat.zero_mul, Nat.zero_add] at hone
  · have height := exec_enc_tagged (classify_eq_eight hlow h) hroom
    rwa [show 64 - 8 * LenClass.eight.octets = 0 from rfl, Nat.pow_zero, Nat.mul_one] at height

/-- Settles O26. The range check comes first and reads `OPA` alone, which another capacity leaves as it is. -/
theorem encOversizedForEveryCapacity : Obligations.EncOversizedForEveryCapacity := by
  unfold Obligations.EncOversizedForEveryCapacity
  exact fun s cap h => exec_enc_of_le (s := { s with outCap := cap }) h

/-- Settles O27. A value with a class is refused for want of room, or encoded whole. -/
theorem encWithoutSpaceWritesNothing : Obligations.EncWithoutSpaceWritesNothing := by
  unfold Obligations.EncWithoutSpaceWritesNothing
  exact fun s c hc => ⟨exec_enc_of_noSpace hc, fun hroom => ⟨_, exec_enc_of_room hc hroom, (by decide : (0 : Word) ≠ 3)⟩⟩

/-- Settles O30. Both runs have room, and then the results `exec_enc_of_room` gives name no register but `OPA`. -/
theorem encOutputDependsOnTheValueAlone : Obligations.EncOutputDependsOnTheValueAlone := by
  unfold Obligations.EncOutputDependsOnTheValueAlone
  intro s s' c hc hopa hroom hroom'
  have hrun' := exec_enc_of_room (hopa.symm ▸ hc : classify s'.opa = some c) hroom'
  rw [hopa] at hrun'
  exact ⟨_, _, exec_enc_of_room hc hroom, hrun', rfl, word_toNat c,
    fun r hr => getReg_withResults_congr s' s _ _ _ _ _ _ hr⟩

end Sys2Proof.Machine

/-! PROOFS. How a command ends: its code, its results after a failure, and what comes before what (60_exceptions.md). -/

namespace Sys2Proof.Machine

/-! ### The ways a command ends -/

/-- The ways a command can end (60_exceptions.md R181, R182): `OK` with its results; one of its failure codes with no result at
all; and a truncated DEC, whose failure alone names a result, the tag byte it consumed. -/
inductive CommandEnd (i : Instr) (s : State) (o : Host.Outcome State Fault Refusal) : Prop
  | ok (r : Results) (h : o = .next (finish .ok r s))
  | failed (code : StatusCode) (hcode : code ∈ failureCodes i) (h : o = .next (finish code {} s))
  | truncated (hi : i = .dec) (h0 : s.inRem ≠ 0) (hshort : s.inRem.toNat < (firstClass s.inWin).octets)
      (h : o = .next (finish .absent { inUsed := 1 } s))

/-- A command that ends with the range check of 41_value.md, and lists `RANGE` as its code. -/
theorem commandEnd_finishInRange {i : Instr} (n : Nat) (r : Results) (s : State) (hcode : .range ∈ failureCodes i) :
    CommandEnd i s (finishInRange n r s) := by
  rcases Nat.lt_or_ge (2 ^ 62 - 1) n with hlt | hle
  · exact .failed .range hcode (finishInRange_of_lt r s hlt)
  · exact .ok r (finishInRange_of_le r s hle)

theorem commandEnd_add (s : State) : CommandEnd .add s (exec .add s) := by
  rcases Nat.lt_or_ge (2 ^ 62 - 1) (s.opa.toNat + s.opb.toNat) with hlt | hle
  · exact .failed .range (by decide) (exec_add_of_lt hlt)
  · exact .ok { res := _ } (exec_add_of_le hle)

theorem commandEnd_addlen (s : State) : CommandEnd .addlen s (exec .addlen s) := by
  rcases Nat.lt_or_ge (2 ^ 62 - 1) s.opa.toNat with hlt | hle
  · exact .failed .range (by decide) (exec_addlen_of_lt hlt)
  · rw [exec_addlen_of_le hle]
    split
    · exact .failed .lenOvf (by decide) rfl
    · exact .ok { res := _ } rfl

theorem commandEnd_dec (s : State) : CommandEnd .dec s (exec .dec s) := by
  by_cases h0 : s.inRem = 0
  · exact .failed .absent (by decide) (exec_dec_of_empty h0)
  rcases Nat.lt_or_ge s.inRem.toNat (firstClass s.inWin).octets with hshort | hwhole
  · exact .truncated rfl h0 hshort (exec_dec_of_truncated h0 hshort)
  · exact .ok { res := _, len := _, inUsed := _ } (exec_dec_of_whole hwhole)

theorem commandEnd_enc (s : State) : CommandEnd .enc s (exec .enc s) := by
  cases hc : classify s.opa with
  | none => exact .failed .oversized (by decide) (exec_enc_of_oversized hc)
  | some c =>
    rcases Nat.lt_or_ge s.outCap.toNat c.octets with hfull | hroom
    · exact .failed .noSpace (by decide) (exec_enc_of_noSpace hc hfull)
    · exact .ok { len := _, outUsed := _, outWin := _ } (exec_enc_of_room hc hroom)

/-- Every command ends in one of these ways, in every state. -/
theorem exec_commandEnd (i : Instr) (s : State) : CommandEnd i s (exec i s) := by
  cases i with
  | fromU8 | fromU16 | fromU32 | cls => exact .ok _ rfl
  | fromU64 | size | toVal => exact commandEnd_finishInRange _ _ s (by decide)
  | add => exact commandEnd_add s
  | addlen => exact commandEnd_addlen s
  | dec => exact commandEnd_dec s
  | enc => exact commandEnd_enc s

/-- Settles O34. A failure names no result, but for the truncated DEC, which consumed the tag byte. -/
theorem failedCommandsHaveZeroResults : Obligations.FailedCommandsHaveZeroResults := by
  unfold Obligations.FailedCommandsHaveZeroResults
  refine ⟨fun s code r => finish_eq_withResults code r s, rfl, fun i s => ?_⟩
  cases exec_commandEnd i s with
  | ok r h => exact ⟨_, _, h, fun hne => absurd rfl hne⟩
  | failed code _ h => exact ⟨_, _, h, fun _ => ⟨rfl, rfl, rfl, rfl, .inl rfl⟩⟩
  | truncated hi h0 hshort h =>
    rw [firstClass_octets] at hshort
    exact ⟨_, _, h, fun _ => ⟨rfl, rfl, rfl, rfl, .inr ⟨rfl, hi, one_le_inRem h0, hshort⟩⟩⟩

/-! ### The codes -/

/-- The code a `STATUS` word holds is the one `finish` wrote there (60_exceptions.md R180). -/
@[simp] theorem statusCode_word (code : StatusCode) : statusCode code.word = some code := by
  cases code <;> rfl

theorem exec_code (i : Instr) (s : State) :
    ∃ code r, exec i s = .next (finish code r s) ∧ (code = .ok ∨ code ∈ failureCodes i) := by
  cases exec_commandEnd i s with
  | ok r h => exact ⟨_, _, h, .inl rfl⟩
  | failed code hcode h => exact ⟨_, _, h, .inr hcode⟩
  | truncated hi _ _ h => exact ⟨_, _, h, .inr (by rw [hi]; decide)⟩

/-- A state in which every command that lists the code reports it. For `OK`: validated operands, a stream of one octet and room
for one; the reset state has neither stream nor room. -/
def stateReporting : StatusCode → State
  | .ok => { State.reset with inRem := 1, outCap := 1 }
  | .oversized | .range => { State.reset with opa := 0x4000000000000000 }
  | .lenOvf => { State.reset with opa := 1, opb := 0xFFFFFFFFFFFFFFFF }
  | .absent | .noSpace | .illegal => State.reset

theorem exec_reports_ok (i : Instr) : ∃ r, exec i (stateReporting .ok) = .next (finish .ok r (stateReporting .ok)) := by
  cases i with
  | fromU8 | fromU16 | fromU32 | cls => exact ⟨_, rfl⟩
  | fromU64 => exact ⟨{ res := _ }, exec_fromU64_of_le (by decide)⟩
  | size => exact ⟨{ len := _ }, exec_size_of_classify (c := .one) rfl⟩
  | toVal => exact ⟨{ res := _ }, exec_toVal_of_le (by decide)⟩
  | add => exact ⟨{ res := _ }, exec_add_of_le (by decide)⟩
  | addlen => exact ⟨{ res := _ }, (exec_addlen_of_le (by decide)).trans (if_neg (by decide))⟩
  | dec => exact ⟨{ res := _, len := _, inUsed := _ }, exec_dec_of_whole (by decide)⟩
  | enc => exact ⟨{ len := _, outUsed := _, outWin := _ }, exec_enc_of_room (c := .one) rfl (by decide)⟩

/-- Each failure code is reported, with no result, by every command that lists it (60_exceptions.md R181). -/
theorem exec_reports_failure {i : Instr} {code : StatusCode} (h : code ∈ failureCodes i) :
    exec i (stateReporting code) = .next (finish code {} (stateReporting code)) := by
  cases code with
  | ok | illegal => exact absurd h (by cases i <;> decide)
  | absent =>
    obtain rfl : i = .dec := by revert h; cases i <;> decide
    exact exec_dec_of_empty rfl
  | oversized =>
    obtain rfl : i = .enc := by revert h; cases i <;> decide
    exact exec_enc_of_le (by decide)
  | noSpace =>
    obtain rfl : i = .enc := by revert h; cases i <;> decide
    exact exec_enc_of_noSpace (c := .one) rfl (by decide)
  | range =>
    obtain ⟨-, hrange, -⟩ := noOkValueExceedsTheBound
    exact hrange i _ (by revert h; cases i <;> decide) (by decide)
  | lenOvf =>
    obtain rfl : i = .addlen := by revert h; cases i <;> decide
    exact (exec_addlen_of_le (by decide)).trans (if_pos (by decide))

/-- Settles O35. Every end has a code of the command's list, and `stateReporting` has a state for each code. -/
theorem commandsReportOnlyTheirCodes : Obligations.CommandsReportOnlyTheirCodes := by
  unfold Obligations.CommandsReportOnlyTheirCodes
  refine ⟨rfl, statusCode_word, rfl, exec_code, fun i code h => ?_, fun word e s h => ⟨{}, issueCommand_of_error s h⟩⟩
  rcases h with rfl | hcode
  · exact ⟨_, exec_reports_ok i⟩
  · exact ⟨_, _, exec_reports_failure hcode⟩

/-! ### Earlier outcomes -/

/-- No operand is a result register (30_encoding.md R62). -/
theorem sameOperands_withResults (i : Instr) (s : State) (status res len inUsed outUsed outWin : Word) :
    sameOperands i (s.withResults status res len inUsed outUsed outWin) s := by
  cases i with
  | fromU8 | fromU16 | fromU32 | fromU64 | size | toVal | cls => exact rfl
  | add | addlen | enc => exact ⟨rfl, rfl⟩
  | dec => exact ⟨rfl, fun _ _ => rfl⟩

/-- Earlier results are no operand, and the command writes over them all. -/
theorem exec_withResults (i : Instr) (s : State) (status res len inUsed outUsed outWin : Word) :
    exec i (s.withResults status res len inUsed outUsed outWin) = exec i s := by
  obtain ⟨_, _, -, he, he'⟩ := endAlike_exec (sameOperands_withResults i s status res len inUsed outUsed outWin)
  rw [he, he']
  rfl

/-- Settles O38. A legal word runs its command, which does not depend on earlier results; an illegal one writes over them. -/
theorem noCommandDependsOnAnEarlierOutcome : Obligations.NoCommandDependsOnAnEarlierOutcome := by
  unfold Obligations.NoCommandDependsOnAnEarlierOutcome
  intro word s status res len inUsed outUsed outWin
  cases hd : decode word with
  | ok i =>
    rw [issueCommand_of_decode _ hd, issueCommand_of_decode _ hd]
    exact exec_withResults i { s with cmd := word } status res len inUsed outUsed outWin
  | error e =>
    rw [issueCommand_of_error _ hd, issueCommand_of_error _ hd]
    rfl

/-! ### The order of the checks -/

/-- Settles O39. Each clause is the command's lemma for its earlier check; ADD's operands both count in the sum. -/
theorem checksHaveTheirPriority : Obligations.ChecksHaveTheirPriority := by
  unfold Obligations.ChecksHaveTheirPriority
  refine ⟨fun _ _ => issueCommand_of_error, fun s => exec_dec_of_empty, fun s h0 h => ?_, fun s => exec_enc_of_oversized,
    fun s => exec_addlen_of_lt, fun s h => exec_add_of_lt (by omega)⟩
  rw [← firstClass_octets] at h
  exact exec_dec_of_truncated h0 h

end Sys2Proof.Machine

/-! PROOFS. The invariant of a run: every step keeps the state legal, and reset starts in a legal state (10_state.md,
60_exceptions.md, 20_memory.md). -/

namespace Sys2Proof.Machine

/-! ### What keeps the invariant -/

/-- However a command ends, its results are 0 after a failure but for a truncated DEC's tag byte (60_exceptions.md R182). -/
theorem exec_failureLegal {i : Instr} {s t : State} (h : exec i s = .next t) : t.failureLegal := by
  cases exec_commandEnd i s with
  | ok r he => cases he.symm.trans h; exact fun hne => absurd rfl hne
  | failed code _ he => cases he.symm.trans h; exact fun _ => ⟨rfl, rfl, rfl, rfl, .inl rfl⟩
  | truncated _ _ _ he => cases he.symm.trans h; exact fun _ => ⟨rfl, rfl, rfl, rfl, .inr ⟨rfl, rfl⟩⟩

theorem issueCommand_failureLegal {word : Word} {s t : State} (h : issueCommand word s = .next t) : t.failureLegal := by
  cases hd : decode word with
  | ok i => exact exec_failureLegal ((issueCommand_of_decode s hd).symm.trans h)
  | error e => cases (issueCommand_of_error s hd).symm.trans h; exact fun _ => ⟨rfl, rfl, rfl, rfl, .inl rfl⟩

theorem issueCommand_host {word : Word} {s t : State} (h : issueCommand word s = .next t) : t.host = s.host := by
  obtain ⟨code, r, he⟩ := issueCommand_finishes word s
  cases he.symm.trans h
  rw [finish_host, setReg_host]

/-- A write to `CMD` leaves legal results whatever they were before; of the old state it keeps the host. -/
theorem issueCommand_legal {word : Word} {s t : State} (h : issueCommand word s = .next t) (hcursor : s.cursorLegal)
    (hvars : s.varsLegal) : t.legal := by
  obtain ⟨u, hu, hresults⟩ := issueCommand_resultsLegal word s
  cases hu.symm.trans h
  have hhost := issueCommand_host h
  exact ⟨hresults, issueCommand_failureLegal h, by rwa [State.cursorLegal, hhost], by rwa [State.varsLegal, hhost]⟩

/-- The invariant does not speak of the registers the host writes. -/
theorem setReg_legal {r : Reg} {s : State} (v : Word) (hr : r.hostAccess = .readWrite) (h : s.legal) : (s.setReg r v).legal := by
  cases r with
  | cmd | opa | opb | inRem | inWin | outCap => exact h
  | status | res | len | inUsed | outUsed | outWin => cases hr

theorem HostOnly.legal {s t : State} (k : HostOnly s t) (h : s.legal) : t.legal := by
  obtain ⟨_, rfl, kcursor, kvars⟩ := k
  obtain ⟨hresults, hfailure, hcursor, hvars⟩ := h
  exact ⟨hresults, hfailure, kcursor hcursor, kvars hvars⟩

/-- Reset leaves the results of an `OK` that names none, and the host as it was. -/
theorem assertReset_legal {s : State} (hcursor : s.cursorLegal) (hvars : s.varsLegal) : s.assertReset.legal :=
  ⟨finish_resultsLegal .ok s.assertReset (Results.legal_of_res 0), fun hne => absurd rfl hne, hcursor, hvars⟩

theorem LineEffect.legal {line : HostLine} {s t : State} (e : LineEffect line s t) (h : s.legal) : t.legal := by
  have hnext : s.nextLine.legal := (HostOnly.nextLine s).legal h
  have ⟨_, _, hcursor, hvars⟩ := hnext
  cases e with
  | issues word _ _ ht => exact issueCommand_legal ht hcursor hvars
  | stores r v hr _ _ ht => rw [ht]; exact setReg_legal v hr hnext
  | presents pad _ rem win ht => rw [ht]; exact setReg_legal win rfl (setReg_legal rem rfl hnext)
  | resets _ ht => rw [ht]; exact assertReset_legal hcursor hvars
  | host k => exact k.legal h

/-- Settles O56. A step stands still or performs a line, and each effect a line can have keeps the invariant. -/
theorem stepsKeepTheStateLegal : Obligations.StepsKeepTheStateLegal := by
  unfold Obligations.StepsKeepTheStateLegal
  intro s t hs h
  rcases step_next h with ⟨_, rfl⟩ | ⟨line, _, e⟩
  · exact hs
  · exact e.legal hs

/-- Settles O57. The state after reset is what reset makes of it, beside a host with no bytes and no variables. -/
theorem resetStateIsLegal : Obligations.ResetStateIsLegal := by
  unfold Obligations.ResetStateIsLegal
  exact assertReset_legal (s := State.reset) (Nat.le_refl 0) List.Pairwise.nil

end Sys2Proof.Machine

/-! PROOFS. Command words and their mnemonics (30_encoding.md). -/

namespace Sys2Proof.Machine

/-- Settles O5. A word that decodes is one that `decode_isOk` finds well formed. -/
theorem decodableWordsAreTheWellFormedOnes : Obligations.DecodableWordsAreTheWellFormedOnes := by
  unfold Obligations.DecodableWordsAreTheWellFormedOnes
  refine fun word => ⟨exists_decode_of_wf, fun ⟨i, hi⟩ => ?_⟩
  rw [← decode_isOk, hi]
  rfl

@[simp] theorem decode_encode (i : Instr) : decode (encode i) = .ok i := (eq_encode_iff_decode _ i).mp rfl

/-- Settles O1. A command's word is the word of its row. -/
theorem decodeOfEncodeIsTheCommand : Obligations.DecodeOfEncodeIsTheCommand := by
  unfold Obligations.DecodeOfEncodeIsTheCommand
  exact decode_encode

/-- Settles O4. The five are command words of the table; each of the three breaks one check of 30_encoding.md R63. -/
theorem writtenOutWordsDecode : Obligations.WrittenOutWordsDecode := by
  unfold Obligations.WrittenOutWordsDecode
  exact ⟨decode_encode .fromU64, decode_encode .addlen, decode_encode .cls, decode_encode .dec, decode_encode .enc,
    rfl, rfl, decode_of_rsv_ne_zero (by decide)⟩

/-- The mnemonics are distinct, so the assembler finds each at its own command. -/
theorem parseMnemonic_mnemonic (i : Instr) : parseMnemonic (mnemonic i) = some i := by
  cases i <;> rfl

/-- Settles O59. The assembler finds the command and writes its word. -/
theorem mnemonicsAssemble : Obligations.MnemonicsAssemble := by
  unfold Obligations.MnemonicsAssemble
  intro i
  rw [assemble, parseMnemonic_mnemonic, Option.map_some]

end Sys2Proof.Machine

/-! PROOFS. The host's part of a transfer, and the addresses of the register window (20_memory.md). -/

namespace Sys2Proof.Machine

/-! ### The stream macros within the stream model of 20_memory.md R46 -/

theorem inAdvance_of_le {s : State} {n : Nat} (hused : s.inUsed.toNat = n)
    (h : s.host.input.cursor + n ≤ s.host.input.bytes.length) :
    inAdvance s = .next (s.withInput { s.host.input with cursor := s.host.input.cursor + n }) := by
  rw [inAdvance, hused]
  exact if_neg (Nat.not_lt.mpr h)

theorem outPresent_of_fits {s : State} (h : s.host.sink.capacity ≤ Config.nativeMax) :
    outPresent s = .next { s with outCap := BitVec.ofNat 64 s.host.sink.capacity } :=
  if_neg (Nat.not_lt.mpr h)

theorem outAppend_of_room {s : State} (h8 : s.outUsed.toNat ≤ 8) (hroom : s.outUsed.toNat ≤ s.host.sink.capacity) :
    outAppend s = .next (s.withSink
      { written := s.host.sink.written ++ producedBytes s, capacity := s.host.sink.capacity - s.outUsed.toNat }) :=
  (if_neg (Nat.not_lt.mpr h8)).trans (if_neg (Nat.not_lt.mpr hroom))

/-- With no byte produced there is nothing to append. -/
theorem outAppend_of_unused {s : State} (h : s.outUsed = 0) : outAppend s = .next s := by
  have h0 : s.outUsed.toNat = 0 := congrArg BitVec.toNat h
  have hnone : producedBytes s = [] := by rw [producedBytes, h0]; rfl
  rw [outAppend_of_room (by omega) (by omega), hnone, h0, List.append_nil]
  rfl

theorem producedBytes_length (s : State) : (producedBytes s).length = s.outUsed.toNat := by
  rw [producedBytes, List.length_map, List.length_range]

theorem producedBytes_getElem? (s : State) {k : Nat} (h : k < (producedBytes s).length) :
    (producedBytes s)[k]? = some (winByte s.outWin k) := by
  rw [producedBytes_length] at h
  rw [producedBytes, List.getElem?_map, List.getElem?_range h]
  rfl

theorem lengthLegal_toNat_le {w : Word} (h : lengthLegal w) : w.toNat ≤ 8 := by
  rcases h with rfl | rfl | rfl | rfl | rfl <;> decide

/-- Settles O49. Each macro completes where its count fits; the ranges of the results keep `OUT_USED` within the window. -/
theorem transferProtocol : Obligations.TransferProtocol := by
  unfold Obligations.TransferProtocol
  refine ⟨fun s pad hfits => ⟨_, inPresent_of_fits pad hfits, fun k h8 hk => some_winByte_window _ pad h8 hk⟩,
    fun s => inAdvance_of_le rfl, fun s => outPresent_of_fits, fun s hlegal hroom => ?_⟩
  obtain ⟨_, _, _, hused, _⟩ := hlegal
  exact ⟨_, producedBytes_length s, fun k => producedBytes_getElem? s, outAppend_of_room (lengthLegal_toNat_le hused) hroom⟩

/-- Settles O19. The stream ends within its first encoding, and the one byte consumed moves the cursor by one. -/
theorem decOnATruncatedStream : Obligations.DecOnATruncatedStream := by
  unfold Obligations.DecOnATruncatedStream
  intro s hpos hshort
  rw [← firstClass_octets] at hshort
  have hnonempty : s.inRem ≠ 0 := fun h => absurd (congrArg BitVec.toNat h) (Nat.one_le_iff_ne_zero.mp hpos)
  exact ⟨exec_dec_of_truncated hnonempty hshort, inAdvance_of_le (s := s.withResults 1 0 0 1 0 0) rfl⟩

/-- Settles O31. A failure of ENC names no result, so no byte is there to append. -/
theorem failedEncLeavesTheSink : Obligations.FailedEncLeavesTheSink := by
  unfold Obligations.FailedEncLeavesTheSink
  intro s
  cases exec_commandEnd .enc s with
  | ok r h => exact ⟨_, h, fun hne => absurd rfl hne⟩
  | failed code _ h => exact ⟨_, h, fun _ => ⟨rfl, rfl, rfl, outAppend_of_unused rfl⟩⟩
  | truncated hi _ _ _ => cases hi

/-! ### Addresses -/

theorem bus_of_offset {addr : Nat} {off : BitVec 8} (h : offsetOfAddress addr = some off) (sz : AccessSize) (v : Word)
    (s : State) : busRead sz addr s = readAt sz off s ∧ busWrite sz addr v s = writeAt sz off v s := by
  rw [busRead, busWrite, h]
  exact ⟨rfl, rfl⟩

theorem bus_of_no_offset {addr : Nat} (h : offsetOfAddress addr = none) (sz : AccessSize) (v : Word) (s : State) :
    busRead sz addr s = .fault .outsideWindow ∧ busWrite sz addr v s = .fault .outsideWindow := by
  rw [busRead, busWrite, h]
  exact ⟨rfl, rfl⟩

/-- Settles O47. An address in the window names its offset, and one outside names none. -/
theorem windowAddressesAreItsOffsets : Obligations.WindowAddressesAreItsOffsets := by
  unfold Obligations.WindowAddressesAreItsOffsets
  exact ⟨fun sz off => bus_of_offset (offsetOfAddress_addressOf off) sz,
    fun sz addr v s h => bus_of_no_offset (offsetOfAddress_eq_none h) sz v s⟩

end Sys2Proof.Machine

/-! PROOFS. What a step does at a write to `CMD`, at reset and with nothing to do, and a command issued again (10_state.md,
30_encoding.md, 60_exceptions.md, 70_reset_and_hazards.md). -/

namespace Sys2Proof.Machine

/-! ### Steps -/

theorem step_of_fetchLine {line : HostLine} {s : State} (h : fetchLine s = some line) : step s = performLine line s := by
  simp only [step, hostStep, h]

theorem step_of_no_line {s : State} (h : fetchLine s = none) : step s = .next s := by
  simp only [step, hostStep, h]

/-- Settles O55. Without a line there is nothing to perform, and `halt` stays where it is. -/
theorem coreIsIdleBetweenCommands : Obligations.CoreIsIdleBetweenCommands := by
  unfold Obligations.CoreIsIdleBetweenCommands
  rintro s (hend | hhalt)
  · exact step_of_no_line hend
  · exact step_of_fetchLine hhalt

theorem step_of_reset {s : State} (h : fetchLine s = some .reset) : step s = .next s.nextLine.assertReset :=
  step_of_fetchLine h

theorem getReg_assertReset (s : State) (r : Reg) : s.assertReset.getReg r = 0 :=
  (getReg_withHost State.reset s.host r).trans (getReg_reset r)

/-- Settles O51. The step is `assertReset`, whose registers are those of the reset state. -/
theorem resetClearsEveryRegister : Obligations.ResetClearsEveryRegister := by
  unfold Obligations.ResetClearsEveryRegister
  refine ⟨fun s h => ⟨_, step_of_reset h, getReg_assertReset _, rfl, rfl⟩, fun s s' t t' h h' ht ht' r => ?_⟩
  cases (step_of_reset h).symm.trans ht
  cases (step_of_reset h').symm.trans ht'
  rw [getReg_assertReset, getReg_assertReset]

/-! ### Writes to `CMD` -/

theorem step_of_writesToCmd_ok {word : Word} {i : Instr} {s : State} (h : writesToCmd word s) (hd : decode word = .ok i) :
    step s = exec i { s with cmd := word, host := { s.host with line := s.host.line + 1 } } :=
  (step_of_writesToCmd h).trans (issueCommand_of_decode s.nextLine hd)

/-- The line a host performs next after one was inserted there is the inserted one. -/
theorem fetchLine_insertLine (line : HostLine) (s : State) :
    fetchLine { s with host := insertLine line s.host } = some line := by
  simp [fetchLine, insertLine]

theorem insertLine_line (line : HostLine) (h : HostAgent) : (insertLine line h).line = min h.line h.program.length :=
  List.length_take

theorem writesToCmd_withFetchWord (s : State) (n w : Nat) : writesToCmd (tableWord n w) (s.withFetchWord n w) :=
  .inr (.inl ⟨_, fetchLine_insertLine _ s, rfl⟩)

theorem decode_of_decodeTableWord {n w : Nat} {i : Instr} (h : decodeTableWord n w = some i) :
    decode (tableWord n w) = .ok i := by
  unfold decodeTableWord at h
  split at h
  · rename_i j hj; cases h; exact hj
  · cases h

/-- Settles O53. The step issues the word; the line `withFetchWord` inserts is such a write. -/
theorem stepRunsTheDecodedCommand : Obligations.StepRunsTheDecodedCommand := by
  unfold Obligations.StepRunsTheDecodedCommand
  refine ⟨fun s word i => step_of_writesToCmd_ok, fun s n w i hd => ?_⟩
  rw [step_of_writesToCmd_ok (writesToCmd_withFetchWord s n w) (decode_of_decodeTableWord hd), ← insertLine_line]
  rfl

/-- Settles O54. The step issues the word, and an illegal word performs no operation. -/
theorem stepReportsAnIllegalWord : Obligations.StepReportsAnIllegalWord := by
  unfold Obligations.StepReportsAnIllegalWord
  exact fun s word e h hd => (step_of_writesToCmd h).trans (issueCommand_of_error s.nextLine hd)

/-! ### A command issued again -/

/-- Settles O40. The state a command leaves differs from the one it began in by results alone, which no command reads. -/
theorem staleOperandsRunTheSameCommandAgain : Obligations.StaleOperandsRunTheSameCommandAgain := by
  unfold Obligations.StaleOperandsRunTheSameCommandAgain
  intro i s
  obtain ⟨code, r, h⟩ := exec_finishes i s
  refine ⟨_, h, ?_⟩
  rw [finish_eq_withResults, exec_withResults, h]
  rfl

end Sys2Proof.Machine
